-- ==== Sys2Proof/Word.lean ====
section
/-! DEFINITION. The value types of the hardware: every value is an unsigned bit vector of a stated width
(00_scope.md R9, 30_encoding.md R64); a ByteSequence is a finite list of bytes (R10). -/

namespace Sys2Proof

/-- 8 bits, unsigned, bit 7 most significant (R64). -/
abbrev Byte := BitVec 8

/-- 4 bits, unsigned, 0 to 15 (R64). -/
abbrev Nibble := BitVec 4

/-- One byte of hex text; any of the 256 values may be presented (R64, R15). -/
abbrev Symbol := BitVec 8

/-- "an ordered sequence of bytes"; both input and output of ENCODE and DECODE (R10). -/
abbrev ByteSequence := List Byte

end Sys2Proof
end

