-- ==== Sys2Proof/Config.lean ====
section
/-! DEFINITION. What is fixed for one machine: the contents of the two ROMs and the three points that
93_implementation_defined.md treats as a `parameter` with a default (U1, U2, U3).
The spec's own contents and defaults are `Machine.standard` (Machine/Ops.lean), and the machine's step uses them alone;
the block functions take a `Config`, so that a claim can also be stated for every admissible choice
(`Config.Admissible`, Safety.lean), as Part 1 of that file asks. -/

namespace Sys2Proof

/-- One machine's constants. It is no part of State: nothing writes it (10_state.md R20, R32). -/
structure Config where
  /-- ENC_ROM: 16 entries of 8 bits (R21). -/
  encRom : Nibble → Byte
  /-- DEC_ROM: 256 entries of 8 bits (R23, R24). -/
  decRom : Symbol → Byte
  /-- U1: the byte COMPACTOR makes of the two looked-up values `hi`, `lo`; default R127 (decision D3). -/
  tol : Byte → Byte → Byte
  /-- U2: CASE.CONV with `uppercase` = 1; default R100 (decision D4). -/
  fold : Symbol → Symbol
  /-- U3: strict mode examines `c1` before `c2`; default true, R124 (decision D8). -/
  c1First : Bool

end Sys2Proof
end

