-- ==== Sys2Proof/Syntax.lean ====
section
/-! DEFINITION. The operations: one constructor per row of spec/opcode_table.json (30_encoding.md R75: twelve rows).
The mode bit that tells two rows apart is part of the constructor's name; the operands are the named ports of R65. -/

namespace Sys2Proof

/-- One evaluation of one block on one set of inputs, or one sequence-level operation (00_scope.md R13). -/
inductive Instr where
  /-- ENC.LOOKUP (R90): `n`, a nibble. -/
  | encLookup (n : Nibble)
  /-- DEC.LOOKUP (R92): `c`, any symbol. -/
  | decLookup (c : Symbol)
  /-- CASE.PASS (R100, `uppercase` = 0). -/
  | casePass (s : Symbol)
  /-- CASE.FOLD (R100, `uppercase` = 1). -/
  | caseFold (s : Symbol)
  /-- EXPAND.L (R104, `uppercase` = 0). -/
  | expandL (b : Byte)
  /-- EXPAND.U (R104, `uppercase` = 1). -/
  | expandU (b : Byte)
  /-- COMPACT.S (R120, `ignore_invalid` = 0, strict): `c1` is the first symbol, the high nibble's. -/
  | compactS (c1 c2 : Symbol)
  /-- COMPACT.T (R120, `ignore_invalid` = 1, tolerant). -/
  | compactT (c1 c2 : Symbol)
  /-- ENCODE.L (R108, `uppercase` = 0) on a byte sequence of any length. -/
  | encodeL (x : ByteSequence)
  /-- ENCODE.U (R108, `uppercase` = 1). -/
  | encodeU (x : ByteSequence)
  /-- DECODE.S (R131, `ignore_invalid` = 0, strict) on a symbol sequence of any length. -/
  | decodeS (x : ByteSequence)
  /-- DECODE.T (R131, `ignore_invalid` = 1, tolerant). -/
  | decodeT (x : ByteSequence)
  deriving DecidableEq, Repr

end Sys2Proof
end

