-- ==== Sys2Proof/WellFormed.lean ====
section
/-! DEFINITION. What makes an operation well formed. The operand types admit every bit pattern and no request is illegal
(30_encoding.md R76), so one check remains: the length bound LEN_MAX of 00_scope.md R8, which the spec leaves OPEN (D10, U6).
It is an argument here (`none`: unbounded, the model's and the spec's default) and no rule depends on a value of it. -/

namespace Sys2Proof

/-- A sequence of length `n` is within the bound. -/
def withinBound (lenMax : Option Nat) (n : Nat) : Bool :=
  match lenMax with
  | none => true
  | some m => decide (n ≤ m)

/-- D10: the laws hold for `len(x) <= LEN_MAX` "(for ENCODE, `2 * len(x)` must also be representable)".
DEDUCED: "representable" is read as being within the same bound (log entry 10). -/
def Instr.wf (lenMax : Option Nat) (i : Instr) : Bool :=
  match i with
  | .encLookup _ => true
  | .decLookup _ => true
  | .casePass _ => true
  | .caseFold _ => true
  | .expandL _ => true
  | .expandU _ => true
  | .compactS _ _ => true
  | .compactT _ _ => true
  | .encodeL x => withinBound lenMax x.length && withinBound lenMax (2 * x.length)
  | .encodeU x => withinBound lenMax x.length && withinBound lenMax (2 * x.length)
  | .decodeS x => withinBound lenMax x.length
  | .decodeT x => withinBound lenMax x.length

abbrev Instr.WellFormed (lenMax : Option Nat) (i : Instr) : Prop := i.wf lenMax = true

end Sys2Proof
end

