-- ==== Sys2Proof/Decode.lean ====
section
/-! DEFINITION. Requests, and what operation a request is (30_encoding.md sections 4 to 7).
A request is decoded in two steps (R75): the block it is presented to fixes the operation family and the format; the most
significant bit of the request word, where the format has a mode bit, fixes the variant. There is no opcode field (R66).
The encoder (`encodeInstr`), the raw words and the host's table words follow the decoder. -/

namespace Sys2Proof

/-- What a host can drive (R75 step 1): one of the five blocks, or one of the two sequence-level operations. -/
inductive Block where
  /-- ENC_ROM, format ROM4. -/
  | encRom
  /-- DEC_ROM, format ROM8. -/
  | decRom
  /-- CASECONV, format CASE9. -/
  | caseConv
  /-- EXPANDER, format EXP9. -/
  | expander
  /-- COMPACTOR, format CMP17. -/
  | compactor
  /-- The sequence level, ENCODE; format SEQ. No hardware block (R4, D9). -/
  | encode
  /-- The sequence level, DECODE; format SEQ. No hardware block (R4, D9). -/
  | decode
  deriving DecidableEq, Repr

/-- A request as it is presented: the block and its request word at the format's exact width (R67 to R72).
For SEQ the word is the single mode bit and the sequence is passed alongside (R72). -/
inductive Request where
  | encRom (w : BitVec 4)
  | decRom (w : BitVec 8)
  | caseConv (w : BitVec 9)
  | expander (w : BitVec 9)
  | compactor (w : BitVec 17)
  | encode (mode : BitVec 1) (x : ByteSequence)
  | decode (mode : BitVec 1) (x : ByteSequence)
  deriving DecidableEq, Repr

/-- R75, R76: total, and no request is illegal. Bits are numbered from 0 at the least significant end (R9). -/
def decodeRequest : Request → Instr
  | .encRom w => .encLookup w
  | .decRom w => .decLookup w
  | .caseConv w =>
    if w.getLsbD 8 then .caseFold (w.extractLsb' 0 8) else .casePass (w.extractLsb' 0 8)
  | .expander w =>
    if w.getLsbD 8 then .expandU (w.extractLsb' 0 8) else .expandL (w.extractLsb' 0 8)
  | .compactor w =>
    if w.getLsbD 16 then .compactT (w.extractLsb' 8 8) (w.extractLsb' 0 8)
    else .compactS (w.extractLsb' 8 8) (w.extractLsb' 0 8)
  | .encode m x => if m.getLsbD 0 then .encodeU x else .encodeL x
  | .decode m x => if m.getLsbD 0 then .decodeT x else .decodeS x

/-- The request of an operation, field by field from R67 to R72, most significant field first. -/
def encodeInstr : Instr → Request
  | .encLookup n => .encRom n
  | .decLookup c => .decRom c
  | .casePass s => .caseConv (0#1 ++ s)
  | .caseFold s => .caseConv (1#1 ++ s)
  | .expandL b => .expander (0#1 ++ b)
  | .expandU b => .expander (1#1 ++ b)
  | .compactS c1 c2 => .compactor (0#1 ++ c1 ++ c2)
  | .compactT c1 c2 => .compactor (1#1 ++ c1 ++ c2)
  | .encodeL x => .encode 0#1 x
  | .encodeU x => .encode 1#1 x
  | .decodeS x => .decode 0#1 x
  | .decodeT x => .decode 1#1 x

/-! ### Raw words -/

/-- The width of a block's request word (R67 to R72, the table's "width"). -/
def Block.width : Block → Nat
  | .encRom => 4
  | .decRom => 8
  | .caseConv => 9
  | .expander => 9
  | .compactor => 17
  | .encode => 1
  | .decode => 1

/-- Whether a sequence is passed beside the word (R72: only with format SEQ). -/
def Block.takesSequence : Block → Bool
  | .encode => true
  | .decode => true
  | .encRom | .decRom | .caseConv | .expander | .compactor => false

/-- Why a raw word is no request of a block: DESIGN CHOICE of the model (log entry 19), for words that a block has no
ports for; every word that fits is accepted (R76). -/
inductive Reject where
  /-- The word has a bit set at or above the width of the block's format. -/
  | wordTooWide (b : Block)
  /-- A sequence stands beside the word, and the block's format has none. -/
  | sequenceNotTaken (b : Block)
  deriving DecidableEq, Repr

/-- The request that presents the bits of `w` to block `b`, with the sequence `x` beside them. -/
def Request.ofWord (b : Block) (w : Nat) (x : ByteSequence) : Except Reject Request :=
  if 2 ^ b.width ≤ w then .error (.wordTooWide b)
  else if !b.takesSequence && !x.isEmpty then .error (.sequenceNotTaken b)
  else
    match b with
    | .encRom => .ok (.encRom (BitVec.ofNat 4 w))
    | .decRom => .ok (.decRom (BitVec.ofNat 8 w))
    | .caseConv => .ok (.caseConv (BitVec.ofNat 9 w))
    | .expander => .ok (.expander (BitVec.ofNat 9 w))
    | .compactor => .ok (.compactor (BitVec.ofNat 17 w))
    | .encode => .ok (.encode (BitVec.ofNat 1 w) x)
    | .decode => .ok (.decode (BitVec.ofNat 1 w) x)

def Request.block : Request → Block
  | .encRom _ => .encRom
  | .decRom _ => .decRom
  | .caseConv _ => .caseConv
  | .expander _ => .expander
  | .compactor _ => .compactor
  | .encode _ _ => .encode
  | .decode _ _ => .decode

/-- The request word as a number. -/
def Request.word : Request → Nat
  | .encRom w => w.toNat
  | .decRom w => w.toNat
  | .caseConv w => w.toNat
  | .expander w => w.toNat
  | .compactor w => w.toNat
  | .encode m _ => m.toNat
  | .decode m _ => m.toNat

/-- The sequence beside the word; empty where the format has none. -/
def Request.sequence : Request → ByteSequence
  | .encode _ x => x
  | .decode _ x => x
  | .encRom _ | .decRom _ | .caseConv _ | .expander _ | .compactor _ => []

/-- The decoder on any bits at all: the operation, or the name of what is wrong with them. -/
def decodeWord (b : Block) (w : Nat) (x : ByteSequence) : Except Reject Instr :=
  match Request.ofWord b w x with
  | .ok r => .ok (decodeRequest r)
  | .error e => .error e

/-! ### The host's table words
A word of spec/opcode_table.json does not say which block it is presented to (R66: "There is no opcode field"), and rows of
different blocks share words: 0 of one byte is ENC.LOOKUP, DEC.LOOKUP, ENCODE.L and DECODE.S. The host's two questions
(`decodeTableWord`, `Machine.State.withFetchWord`) name no block, so this model reads such a word BY A CONVENTION OF ITS
OWN, DESIGN CHOICE (log entry 5): the narrowest format of that many bytes which holds the word, and of two blocks of
one format the first in the table's order. No meaning and no statement about an operation uses it. -/

/-- One representative of each format, narrowest first: SEQ, ROM4, ROM8, CASE9, CMP17. -/
def tableBlocks : List Block := [.encode, .encRom, .decRom, .caseConv, .compactor]

/-- The block of a table word given without its block, by the convention above. -/
def tableBlock (nbits w : Nat) : Option Block :=
  tableBlocks.find? fun b => (b.width + 7) / 8 == (nbits + 7) / 8 && decide (w < 2 ^ b.width)

/-- The request of a table word; the sequence operand of a SEQ word has no bits in the table and is empty. -/
def tableRequest (nbits w : Nat) : Option Request :=
  match tableBlock nbits w with
  | none => none
  | some b => (Request.ofWord b w []).toOption

/-- The operation this decoder reads from a table word (see the convention above). -/
def decodeTableWord (nbits w : Nat) : Option Instr :=
  match tableRequest nbits w with
  | none => none
  | some r => some (decodeRequest r)

end Sys2Proof
end

