-- ==== Sys2Proof/Machine/State.lean ====
section
/-! DEFINITION. The results of operations, the state, and the reasons a step can stop.
10_state.md R20: the hardware's state is its two ROMs and nothing else, and "A model represents the two ROMs as constants
..., not as fields of a mutable machine state" (`encRom`, `decRom` in Machine/Ops.lean; log entry 1). What changes from
step to step is on the host's side of the ports: the requests it has still to present and the outputs it has collected
(95_test_vectors.md section 3; log entry 2). -/

namespace Sys2Proof.Machine

/-- The two error conditions, result values of the failing operation (60_exceptions.md R150; 30_encoding.md R72). -/
inductive DecodeError where
  /-- DECODE of an odd number of symbols; records nothing (R151). -/
  | oddLength
  /-- A strict-mode invalid symbol; records the raw symbol presented (R152, R123). -/
  | invalidByte (symbol : Symbol)
  deriving DecidableEq, Repr

/-- The outputs of one operation, under the port names of R65; a failure carries the error alone (R72, R135). -/
inductive Response where
  /-- ENC.LOOKUP's `sym` (R67). -/
  | symbol (sym : Symbol)
  /-- DEC.LOOKUP's `val` (R68). -/
  | value (val : Byte)
  /-- CASE.CONV's `t` (R69). -/
  | cased (t : Symbol)
  /-- EXPAND's `s1`, `s2` (R70). -/
  | pair (s1 s2 : Symbol)
  /-- COMPACT's byte or error, "never both" (R71, R120). -/
  | compacted (r : Except DecodeError Byte)
  /-- ENCODE's `y`, always present (R72). -/
  | encoded (y : ByteSequence)
  /-- DECODE's `y` or error (R72). -/
  | decoded (r : Except DecodeError ByteSequence)
  deriving DecidableEq, Repr

/-- The host's bench around the blocks. Plain data; both fields are the model's own (log entry 2). -/
structure State where
  /-- Requests the host has still to present, in the order it presents them. -/
  requests : List Request
  /-- Outputs delivered to the host so far, oldest first. No operation reads them (R29, R163). -/
  responses : List Response
  deriving DecidableEq, Repr

/-- No behaviour of this hardware is a machine fault (93_implementation_defined.md, end of Part 1; R76): OddLength and
InvalidByte are delivered results, not stops. So there is no constructor. -/
inductive Fault where
  deriving DecidableEq, Repr

/-- Why a step can be refused. -/
inductive Refusal where
  /-- An operation without a meaning: raised only by a refused arm of `exec`; no arm is refused. Safe: it stops. -/
  | notModelled (mnemonic : String)
  deriving DecidableEq, Repr

/-- After reset: the ROMs are constants at all times (R33, R180); the host has presented nothing and collected nothing
(DESIGN CHOICE, log entry 2). -/
def State.reset : State := { requests := [], responses := [] }

end Sys2Proof.Machine
end

