-- ==== Sys2Proof/Machine/Operands.lean ====
section
/-! DEFINITION. Operand forms: nibble extraction and byte assembly (30_encoding.md section 5), the case fold's arithmetic,
the mode inputs' tie-off values, the document's call syntax and string literals (section 8). All arithmetic of the
hardware stands here and nowhere else (40_rom_lookups.md R95). -/

namespace Sys2Proof.Machine

/-- The sentinel of an invalid symbol, 255 (30_encoding.md R63). -/
def INVALID : Byte := 0xFF#8

/-- `hi = b >> 4`, `b[7:4]` (R73). -/
def hiNibble (b : Byte) : Nibble := b.extractLsb' 4 4

/-- `lo = b & 0x0F`, `b[3:0]` (R73). -/
def loNibble (b : Byte) : Nibble := b.extractLsb' 0 4

/-- `((hi << 4) | lo)[7:0]` in 8 bits, bits shifted past bit 7 discarded (R74, R127: decision D3, log entry 6). -/
def combine (hi lo : Byte) : Byte := (hi <<< 4) ||| lo

/-- CASE.CONV with `uppercase` = 1: 32 less on 0x61 to 0x66, every other input unchanged (R100; off the alphabet
decision D4, log entry 7). -/
def foldCase (s : Symbol) : Symbol := if 0x61#8 ≤ s ∧ s ≤ 0x66#8 then s - 32#8 else s

/-! ### Mode inputs -/

/-- `uppercase` as driven, or tied to the document's default 0 where the host does not drive it (R30, R183). -/
def uppercaseInput (driven : Option (BitVec 1)) : BitVec 1 := driven.getD 0#1

/-- `ignore_invalid` as driven, or tied to the document's default 1 (R30, R183). -/
def ignoreInvalidInput (driven : Option (BitVec 1)) : BitVec 1 := driven.getD 1#1

/-- The call `encode(x, uppercase)`; the argument may be omitted (R80, R82). -/
def callEncode (x : ByteSequence) (uppercase : Option (BitVec 1)) : Request :=
  .encode (uppercaseInput uppercase) x

/-- The call `decode(x, ignore_invalid)`; the argument may be omitted (R81, R82). -/
def callDecode (x : ByteSequence) (ignoreInvalid : Option (BitVec 1)) : Request :=
  .decode (ignoreInvalidInput ignoreInvalid) x

/-- The table functions' call syntax: `encode_nibble(n)` is ENC.LOOKUP (R82). -/
def callEncodeNibble (n : Nibble) : Request := .encRom n

/-- `decode_symbol(c)` is DEC.LOOKUP (R82). -/
def callDecodeSymbol (c : Symbol) : Request := .decRom c

/-- A string literal as a sequence: the ASCII code of each character, one byte per character (00_scope.md R10,
30_encoding.md R83). DESIGN CHOICE (log entry 21): for a character that has no ASCII code the spec gives nothing (text
conversion is external, 91_not_in_source.md N15), and this takes the low 8 bits of its code point. No operation calls
it: the hardware sees bytes only. -/
def symbolsOf (text : List Char) : ByteSequence := text.map fun ch => BitVec.ofNat 8 ch.toNat

end Sys2Proof.Machine
end

