-- ==== Sys2Proof/Machine/Flags.lean ====
section
/-! DEFINITION. The status outputs `err` and `err_sym` and the packed response words (30_encoding.md R67 to R72, R78;
60_exceptions.md R153). Nothing is stored (10_state.md R29): these are functions of one operation's result. The numbers and
the zero padding are a rendering of the sum types, decision D7 (log entry 9); no meaning uses them. -/

namespace Sys2Proof.Machine

/-- `err[1:0]`: 0 success, 1 OddLength, 2 InvalidByte; 3 is reserved and never produced (R78). -/
def errCode {α : Type} : Except DecodeError α → BitVec 2
  | .ok _ => 0#2
  | .error .oddLength => 1#2
  | .error (.invalidByte _) => 2#2

/-- `err_sym[7:0]`: the symbol of InvalidByte, 0x00 otherwise (R153). -/
def errSym {α : Type} : Except DecodeError α → Symbol
  | .ok _ => 0#8
  | .error .oddLength => 0#8
  | .error (.invalidByte sym) => sym

/-- The packed `byte` field: the result, or 0x00 on failure (R71). -/
def byteField : Except DecodeError Byte → Byte
  | .ok b => b
  | .error _ => 0#8

/-- EXPAND's response word: bits 15:8 = `s1`, bits 7:0 = `s2` (R70, R45). -/
def expandWord (s1 s2 : Symbol) : BitVec 16 := s1 ++ s2

/-- COMPACT's response word: bits 17:16 = `err`, 15:8 = `err_sym`, 7:0 = `byte` (R71). -/
def compactWord (r : Except DecodeError Byte) : BitVec 18 := errCode r ++ errSym r ++ byteField r

/-- DECODE's response: `err`, `err_sym` and `y`, which is absent on failure (R72). -/
def decodeOutputs (r : Except DecodeError ByteSequence) : BitVec 2 × Symbol × Option ByteSequence :=
  (errCode r, errSym r, r.toOption)

/-- The error a response delivers, if it is a failure (R150). -/
def Response.error? : Response → Option DecodeError
  | .symbol _ => none
  | .value _ => none
  | .cased _ => none
  | .pair _ _ => none
  | .compacted (.ok _) => none
  | .compacted (.error e) => some e
  | .encoded _ => none
  | .decoded (.ok _) => none
  | .decoded (.error e) => some e

end Sys2Proof.Machine
end

