-- ==== Sys2Proof/Machine/Ops.lean ====
section
/-! DEFINITION. The two memories and the shared operations: reading a ROM (20_memory.md), delivering a result and raising
an error (60_exceptions.md section 4). No operation writes a memory (10_state.md R32). -/

namespace Sys2Proof.Machine

/-! ### The two ROMs -/

/-- ENC_ROM's 16 entries in address order: the ASCII codes of `0123456789abcdef` (10_state.md R21). -/
def encTable : List Byte :=
  [0x30, 0x31, 0x32, 0x33, 0x34, 0x35, 0x36, 0x37, 0x38, 0x39, 0x61, 0x62, 0x63, 0x64, 0x65, 0x66]

/-- ENC_ROM (R21). Every 4-bit address is populated (20_memory.md R42, R50), so the default is never taken. -/
def encRom (n : Nibble) : Byte := encTable.getD n.toNat 0

/-- A row of DEC_ROM's grid that holds no valid symbol. -/
def invalidRow : List Byte := List.replicate 16 INVALID

/-- The row of the letters: 10 to 15 at columns 1 to 6 (rows 4 and 6). -/
def letterRow : List Byte :=
  [0xFF, 0x0A, 0x0B, 0x0C, 0x0D, 0x0E, 0x0F, 0xFF, 0xFF, 0xFF, 0xFF, 0xFF, 0xFF, 0xFF, 0xFF, 0xFF]

/-- The row of the digits: 0 to 9 at columns 0 to 9 (row 3). -/
def digitRow : List Byte :=
  [0x00, 0x01, 0x02, 0x03, 0x04, 0x05, 0x06, 0x07, 0x08, 0x09, 0xFF, 0xFF, 0xFF, 0xFF, 0xFF, 0xFF]

/-- DEC_ROM's grid: row = address bits 7:4, column = address bits 3:0 (10_state.md R24). -/
def decGrid : List (List Byte) :=
  [invalidRow, invalidRow, invalidRow, digitRow, letterRow, invalidRow, letterRow, invalidRow,
   invalidRow, invalidRow, invalidRow, invalidRow, invalidRow, invalidRow, invalidRow, invalidRow]

/-- DEC_ROM (R24). Every 8-bit address is populated (20_memory.md R42, R50), so no default is ever taken. -/
def decRom (c : Symbol) : Byte :=
  (decGrid.getD (hiNibble c).toNat []).getD (loNibble c).toNat 0

/-- The machine the spec describes: R21's and R24's contents, and the default of each open parameter
(93_implementation_defined.md U1, U2, U3). `exec` uses this and no other. -/
def standard : Config :=
  { encRom := encRom, decRom := decRom, tol := combine, fold := foldCase, c1First := true }

/-- A location: the two address spaces are disjoint and named, "never numbered into one map" (20_memory.md R40). -/
inductive Addr where
  | enc (n : Nibble)
  | dec (c : Symbol)
  deriving DecidableEq, Repr

/-- `MemRead(ENC:a, 1)`, `MemRead(DEC:a, 1)` (00_scope.md R11): total, one 8-bit entry, no side effect (R48, R49). -/
def memRead (cfg : Config) : Addr → Byte
  | .enc n => cfg.encRom n
  | .dec c => cfg.decRom c

/-! ### Delivery -/

/-- The state after the host has collected one more response. -/
def State.collect (s : State) (r : Response) : State := { s with responses := s.responses ++ [r] }

/-- The state whose requests still to present are `rs`. -/
def State.withRequests (s : State) (rs : List Request) : State := { s with requests := rs }

/-- The host receives the outputs of the operation it presented, a success or a failure; nothing else changes
(60_exceptions.md R161 to R163). -/
def deliver (r : Response) (s : State) : Host.Outcome State Fault Refusal := .next (s.collect r)

/-- `raise e` (00_scope.md R11): the operation ends with the failure as its whole result. This is all that takes the place of
trap entry: nothing is saved, no mode changes, no handler runs (R161 to R163); and nothing takes the place of a return,
since there is nothing to return from (R164). -/
def raise {α : Type} (e : DecodeError) : Except DecodeError α := .error e

end Sys2Proof.Machine
end

