-- ==== Sys2Proof/Machine/Lookup.lean ====
section
/-! DEFINITION. The ROM lookup operations ENC.LOOKUP and DEC.LOOKUP (40_rom_lookups.md). -/

namespace Sys2Proof.Machine

/-- ENC.LOOKUP: `return MemRead(ENC:n, 1)` (R90). -/
def encLookup (cfg : Config) (n : Nibble) : Symbol := memRead cfg (.enc n)

/-- DEC.LOOKUP: `return MemRead(DEC:c, 1)` (R92); an invalid symbol is the value 255, not an error. -/
def decLookup (cfg : Config) (c : Symbol) : Byte := memRead cfg (.dec c)

def execEncLookup (n : Nibble) (s : State) : Host.Outcome State Fault Refusal :=
  deliver (.symbol (encLookup standard n)) s

def execDecLookup (c : Symbol) (s : State) : Host.Outcome State Fault Refusal :=
  deliver (.value (decLookup standard c)) s

end Sys2Proof.Machine
end

