-- ==== Sys2Proof/Machine/Decoder.lean ====
section
/-! DEFINITION. The decoder path: COMPACT and DECODE (42_decoder.md). It reads DEC_ROM only and is the only path that can fail. -/

namespace Sys2Proof.Machine

/-- The invalid symbol that strict mode reports of a pair, if there is one: `c1` is examined before `c2`
(R120, R124: decision D8, log entry 8; the other order is U3's alternative). -/
def reportedInvalid (cfg : Config) (c1 c2 : Symbol) : Option Symbol :=
  match cfg.c1First with
  | true =>
    if decLookup cfg c1 = INVALID then some c1 else if decLookup cfg c2 = INVALID then some c2 else none
  | false =>
    if decLookup cfg c2 = INVALID then some c2 else if decLookup cfg c1 = INVALID then some c1 else none

/-- COMPACT (R120). Tolerant mode has no datapath of its own: the sentinel is combined like any value (R128). -/
def compact (cfg : Config) (c1 c2 : Symbol) (ignoreInvalid : Bool) : Except DecodeError Byte :=
  match if ignoreInvalid then none else reportedInvalid cfg c1 c2 with
  | some sym => raise (.invalidByte sym)
  | none => .ok (cfg.tol (decLookup cfg c1) (decLookup cfg c2))

/-- DECODE's loop over the pairs at even indices, in order (R131, R133): the first failing pair ends it and the bytes
decoded before are discarded (R135). A single symbol left over does not arise after the length check. -/
def decodePairs (cfg : Config) (ignoreInvalid : Bool) : ByteSequence → Except DecodeError ByteSequence
  | c1 :: c2 :: x =>
    match compact cfg c1 c2 ignoreInvalid with
    | .error e => .error e
    | .ok b =>
      match decodePairs cfg ignoreInvalid x with
      | .error e => .error e
      | .ok y => .ok (b :: y)
  | [_] => .ok []
  | [] => .ok []

/-- DECODE (R131): the length check comes first, in both modes and before any symbol is read (R132, R156). -/
def decodeSeq (cfg : Config) (ignoreInvalid : Bool) (x : ByteSequence) : Except DecodeError ByteSequence :=
  if x.length % 2 = 1 then raise .oddLength else decodePairs cfg ignoreInvalid x

def execCompactS (c1 c2 : Symbol) (s : State) : Host.Outcome State Fault Refusal :=
  deliver (.compacted (compact standard c1 c2 false)) s

def execCompactT (c1 c2 : Symbol) (s : State) : Host.Outcome State Fault Refusal :=
  deliver (.compacted (compact standard c1 c2 true)) s

def execDecodeS (x : ByteSequence) (s : State) : Host.Outcome State Fault Refusal :=
  deliver (.decoded (decodeSeq standard false x)) s

def execDecodeT (x : ByteSequence) (s : State) : Host.Outcome State Fault Refusal :=
  deliver (.decoded (decodeSeq standard true x)) s

end Sys2Proof.Machine
end

