-- ==== Sys2Proof/Machine/Encoder.lean ====
section
/-! DEFINITION. The encoder path: CASE.CONV, EXPAND and ENCODE (41_encoder.md). It reads ENC_ROM only and never fails. -/

namespace Sys2Proof.Machine

/-- CASE.CONV (R100). -/
def caseConv (cfg : Config) (s : Symbol) (uppercase : Bool) : Symbol :=
  if uppercase then cfg.fold s else s

/-- EXPAND (R104): each symbol is folded after its lookup (R105). -/
def expand (cfg : Config) (b : Byte) (uppercase : Bool) : Symbol × Symbol :=
  (caseConv cfg (encLookup cfg (hiNibble b)) uppercase, caseConv cfg (encLookup cfg (loNibble b)) uppercase)

/-- ENCODE (R108): EXPAND of every byte in order, with one mode value, the pairs concatenated. -/
def encodeSeq (cfg : Config) (uppercase : Bool) : ByteSequence → ByteSequence
  | [] => []
  | b :: x => (expand cfg b uppercase).1 :: (expand cfg b uppercase).2 :: encodeSeq cfg uppercase x

def execCasePass (c : Symbol) (s : State) : Host.Outcome State Fault Refusal :=
  deliver (.cased (caseConv standard c false)) s

def execCaseFold (c : Symbol) (s : State) : Host.Outcome State Fault Refusal :=
  deliver (.cased (caseConv standard c true)) s

def execExpandL (b : Byte) (s : State) : Host.Outcome State Fault Refusal :=
  deliver (.pair (expand standard b false).1 (expand standard b false).2) s

def execExpandU (b : Byte) (s : State) : Host.Outcome State Fault Refusal :=
  deliver (.pair (expand standard b true).1 (expand standard b true).2) s

def execEncodeL (x : ByteSequence) (s : State) : Host.Outcome State Fault Refusal :=
  deliver (.encoded (encodeSeq standard false x)) s

def execEncodeU (x : ByteSequence) (s : State) : Host.Outcome State Fault Refusal :=
  deliver (.encoded (encodeSeq standard true x)) s

end Sys2Proof.Machine
end

