-- ==== Sys2Proof/Machine/Dispatch.lean ====
section
/-! DEFINITION. Which meaning each operation has: one arm per constructor of Instr. -/

namespace Sys2Proof.Machine

def exec (i : Instr) (s : State) : Host.Outcome State Fault Refusal :=
  match i with
  -- the ROM lookups (40_rom_lookups.md)
  | .encLookup n => Sys2Proof.Machine.execEncLookup n s
  | .decLookup c => Sys2Proof.Machine.execDecLookup c s
  -- the encoder path (41_encoder.md)
  | .casePass c => Sys2Proof.Machine.execCasePass c s
  | .caseFold c => Sys2Proof.Machine.execCaseFold c s
  | .expandL b => Sys2Proof.Machine.execExpandL b s
  | .expandU b => Sys2Proof.Machine.execExpandU b s
  -- the decoder path (42_decoder.md)
  | .compactS c1 c2 => Sys2Proof.Machine.execCompactS c1 c2 s
  | .compactT c1 c2 => Sys2Proof.Machine.execCompactT c1 c2 s
  -- the sequence level
  | .encodeL x => Sys2Proof.Machine.execEncodeL x s
  | .encodeU x => Sys2Proof.Machine.execEncodeU x s
  | .decodeS x => Sys2Proof.Machine.execDecodeS x s
  | .decodeT x => Sys2Proof.Machine.execDecodeT x s

end Sys2Proof.Machine
end

