-- ==== Sys2Proof/Machine/Step.lean ====
section
/-! DEFINITION. One step: the host presents its next request and receives the outputs. The hardware fetches nothing and has
no program counter (10_state.md R28); what stands here for a fetch is taking the next request of the host's list, and what
stands for moving past it is that the request is no longer in the list. -/

namespace Sys2Proof.Machine

/-- One operation, from its request to the delivery of its result. With no request left the blocks are not driven and
nothing changes (DESIGN CHOICE, log entry 4). -/
def step (s : State) : Host.Outcome State Fault Refusal :=
  match s.requests with
  | [] => .next s
  | r :: rest => exec (decodeRequest r) (s.withRequests rest)

/-- The state in which a table word is the host's next request; unchanged where no format of that many bytes holds the word
(`tableRequest`, Decode.lean; log entries 3 and 5). -/
def State.withFetchWord (s : State) (nbits w : Nat) : State :=
  match tableRequest nbits w with
  | none => s
  | some r => s.withRequests (r :: s.requests)

end Sys2Proof.Machine
end

