-- ==== Sys2Proof/Safety.lean ====
section
/-! DEFINITION. The terms claims use: the spec's own vocabulary (00_scope.md R16, 30_encoding.md R60), written apart from the
ROMs so that a claim compares two texts; the admissible choices of the open parameters; which locations an operation
reads; what a delivered response may look like; the drivers that run ENCODE and DECODE on the per-element blocks. -/

namespace Sys2Proof.Machine

/-! ### The alphabets -/

/-- The codes of `0` to `9` (30_encoding.md R61). -/
def isDigitCode (c : Symbol) : Bool := decide (0x30#8 ≤ c) && decide (c ≤ 0x39#8)

/-- The codes of `a` to `f` (R61). -/
def isLowerCode (c : Symbol) : Bool := decide (0x61#8 ≤ c) && decide (c ≤ 0x66#8)

/-- The codes of `A` to `F` (R61). -/
def isUpperCode (c : Symbol) : Bool := decide (0x41#8 ≤ c) && decide (c ≤ 0x46#8)

/-- A hex digit character: one of the 22 of the decode alphabet (R60 (c), 00_scope.md R16). -/
def isHexDigit (c : Symbol) : Bool := isDigitCode c || isLowerCode c || isUpperCode c

/-- The lowercase encode alphabet in value order (R60 (a), R62). -/
def lowerAlphabet : ByteSequence :=
  [0x30, 0x31, 0x32, 0x33, 0x34, 0x35, 0x36, 0x37, 0x38, 0x39, 0x61, 0x62, 0x63, 0x64, 0x65, 0x66]

/-- The uppercase encode alphabet in value order (R60 (b), R62). -/
def upperAlphabet : ByteSequence :=
  [0x30, 0x31, 0x32, 0x33, 0x34, 0x35, 0x36, 0x37, 0x38, 0x39, 0x41, 0x42, 0x43, 0x44, 0x45, 0x46]

/-- What an encoder output may hold for one value of `uppercase`. -/
def alphabet (uppercase : Bool) : ByteSequence := if uppercase then upperAlphabet else lowerAlphabet

/-- The value of a hex digit character, 0 to 15 (R62); 0 elsewhere, where no claim uses it. -/
def digitValue (c : Symbol) : Nat :=
  if isDigitCode c then c.toNat - 0x30
  else if isLowerCode c then c.toNat - 0x61 + 10
  else if isUpperCode c then c.toNat - 0x41 + 10
  else 0

/-- Equal, or the same letter in the other case: the codes of one letter differ by 32 (R62; 42_decoder.md R141). -/
def CaseVariant (c c' : Symbol) : Prop :=
  c' = c ∨ (isLowerCode c = true ∧ c' = c - 32#8) ∨ (isUpperCode c = true ∧ c' = c + 32#8)

/-- Every letter of `s` is lowercase when `uppercase` is false, uppercase when it is true (42_decoder.md R144). -/
def lettersInCase (uppercase : Bool) (s : ByteSequence) : Prop :=
  ∀ c ∈ s, if uppercase then isLowerCode c = false else isUpperCode c = false

end Sys2Proof.Machine

namespace Sys2Proof

open Machine

/-- A machine whose ROMs are the spec's and whose open parameters are admissible in the sense of
93_implementation_defined.md: U1, `tol` merges two valid values; U2, `fold` is R100's on the 16 lowercase-alphabet
codes; U3, either order. -/
structure Config.Admissible (cfg : Config) : Prop where
  encRom_eq : cfg.encRom = Machine.encRom
  decRom_eq : cfg.decRom = Machine.decRom
  tol_valid : ∀ h l : Nibble, cfg.tol (h.zeroExtend 8) (l.zeroExtend 8) = h ++ l
  fold_emitted : ∀ n : Nibble, cfg.fold (Machine.encRom n) = foldCase (Machine.encRom n)

end Sys2Proof

namespace Sys2Proof.Machine

/-! ### Operations as functions -/

/-- The outputs of an operation on a machine, a function of its inputs and the constants alone (10_state.md R20). -/
def response (cfg : Config) : Instr → Response
  | .encLookup n => .symbol (encLookup cfg n)
  | .decLookup c => .value (decLookup cfg c)
  | .casePass c => .cased (caseConv cfg c false)
  | .caseFold c => .cased (caseConv cfg c true)
  | .expandL b => .pair (expand cfg b false).1 (expand cfg b false).2
  | .expandU b => .pair (expand cfg b true).1 (expand cfg b true).2
  | .compactS c1 c2 => .compacted (compact cfg c1 c2 false)
  | .compactT c1 c2 => .compacted (compact cfg c1 c2 true)
  | .encodeL x => .encoded (encodeSeq cfg false x)
  | .encodeU x => .encoded (encodeSeq cfg true x)
  | .decodeS x => .decoded (decodeSeq cfg false x)
  | .decodeT x => .decoded (decodeSeq cfg true x)

/-- The two ENC_ROM reads of EXPAND (20_memory.md R41). -/
def expandReads (b : Byte) : List Addr := [.enc (hiNibble b), .enc (loNibble b)]

/-- DECODE's reads, two per pair, up to and with the pair that ends it (R41, 42_decoder.md R134). -/
def pairReads (cfg : Config) (ignoreInvalid : Bool) : ByteSequence → List Addr
  | c1 :: c2 :: x =>
    .dec c1 :: .dec c2 ::
      match compact cfg c1 c2 ignoreInvalid with
      | .error _ => []
      | .ok _ => pairReads cfg ignoreInvalid x
  | [_] => []
  | [] => []

/-- The ROM locations an operation reads, in order, with repetitions (20_memory.md R41). -/
def romReads (cfg : Config) : Instr → List Addr
  | .encLookup n => [.enc n]
  | .decLookup c => [.dec c]
  | .casePass _ => []
  | .caseFold _ => []
  | .expandL b => expandReads b
  | .expandU b => expandReads b
  | .compactS c1 c2 => [.dec c1, .dec c2]
  | .compactT c1 c2 => [.dec c1, .dec c2]
  | .encodeL x => x.flatMap expandReads
  | .encodeU x => x.flatMap expandReads
  | .decodeS x => if x.length % 2 = 1 then [] else pairReads cfg false x
  | .decodeT x => if x.length % 2 = 1 then [] else pairReads cfg true x

/-- A location of the space ENC. -/
def Addr.inEnc : Addr → Bool
  | .enc _ => true
  | .dec _ => false

/-! ### Safe runs -/

/-- A run of `n` steps that no fault and no refusal ends. -/
def runsSafely (n : Nat) (s : State) : Prop := ∃ t, Sys2Proof.core.run n s = .next t

/-- What the spec lets a delivered response be: the ranges of 30_encoding.md R60, R64, R78, 40_rom_lookups.md R93,
41_encoder.md R106, R113, and who can raise what, 60_exceptions.md R154. -/
def Response.Legal : Response → Prop
  | .symbol v => v ∈ lowerAlphabet
  | .value v => v ≤ 15#8 ∨ v = INVALID
  | .cased _ => True
  | .pair s1 s2 => ∃ u, s1 ∈ alphabet u ∧ s2 ∈ alphabet u
  | .compacted (.ok _) => True
  | .compacted (.error .oddLength) => False
  | .compacted (.error (.invalidByte sym)) => isHexDigit sym = false
  | .encoded y => y.length % 2 = 0 ∧ ∃ u, ∀ c ∈ y, c ∈ alphabet u
  | .decoded (.ok _) => True
  | .decoded (.error .oddLength) => True
  | .decoded (.error (.invalidByte sym)) => isHexDigit sym = false

/-- The invariant: every response collected so far is one the spec allows. -/
def State.Inv (s : State) : Prop := ∀ r ∈ s.responses, r.Legal

/-! ### Drivers of the per-element blocks (R4, 95_test_vectors.md P1, P2, P4, P5) -/

/-- One EXPAND request per byte, the mode held (10_state.md R30). -/
def expandProgram (uppercase : Bool) (x : ByteSequence) : List Request :=
  x.map fun b => .expander (BitVec.ofBool uppercase ++ b)

/-- One COMPACT request per pair of symbols, the mode held; the caller has checked that the length is even. -/
def compactProgram (ignoreInvalid : Bool) : ByteSequence → List Request
  | c1 :: c2 :: x => .compactor (BitVec.ofBool ignoreInvalid ++ c1 ++ c2) :: compactProgram ignoreInvalid x
  | [_] => []
  | [] => []

/-- The host appends the two symbols of every EXPAND response, in order (P1). -/
def collectSymbols : List Response → ByteSequence
  | .pair s1 s2 :: rs => s1 :: s2 :: collectSymbols rs
  | _ :: rs => collectSymbols rs
  | [] => []

/-- The host appends the byte of every COMPACT response; the first failure is the whole result and the bytes before it are
discarded (P2, P4). -/
def collectBytes : List Response → Except DecodeError ByteSequence
  | .compacted (.ok b) :: rs =>
    match collectBytes rs with
    | .ok y => .ok (b :: y)
    | .error e => .error e
  | .compacted (.error e) :: _ => .error e
  | _ :: rs => collectBytes rs
  | [] => .ok []

end Sys2Proof.Machine
end

