-- ==== Sys2Proof/Certificates/Slice0/Obligations.lean ====
section
/-! DEFINITION. The statements for the provers, file by file of the spec. `s.collect r` is the state `s` with the response `r`
appended to what the host has collected and nothing else changed (Machine/Ops.lean), so that an equation with it says
the operation's result and its whole frame. There is no register, flag, special register, program counter or writable
memory to frame (10_state.md R27 to R32): the two ROMs are constants, and no operation can be given other ones. -/

open Sys2Proof Sys2Proof.Machine

/-! ### Reset and the ROMs (10_state.md, 70_reset_and_hazards.md) -/

/-- The two lists at reset are the MODEL'S CHOICE (log entry 2): the spec has no such state (R180). -/
def Obligations.ResetHasNothingPresentedOrCollected : Prop :=
  State.reset.requests = [] ∧ State.reset.responses = [] ∧ step State.reset = .next State.reset

/-- R21, against the lowercase encode alphabet in value order (R60 (a), R62). -/
def Obligations.EncRomHoldsTheLowercaseDigits : Prop :=
  ∀ n : Nibble, lowerAlphabet[n.toNat]? = some (memRead standard (.enc n))

/-- R24: the three ranges and the sentinel everywhere else. -/
def Obligations.DecRomHoldsTheTwentyTwoEntries : Prop :=
  (∀ k < 10, memRead standard (.dec (BitVec.ofNat 8 (0x30 + k))) = BitVec.ofNat 8 k) ∧
  (∀ k < 6, memRead standard (.dec (BitVec.ofNat 8 (0x61 + k))) = BitVec.ofNat 8 (10 + k)) ∧
  (∀ k < 6, memRead standard (.dec (BitVec.ofNat 8 (0x41 + k))) = BitVec.ofNat 8 (10 + k)) ∧
  ∀ c : Symbol, isHexDigit c = false → memRead standard (.dec c) = 0xFF#8

/-- R25, derived by the spec from R24: the four tests of validity agree, 22 addresses are valid, no entry is in 16 to 254. -/
def Obligations.DecRomValidityTestsAgree : Prop :=
  (∀ c : Symbol,
    (isHexDigit c = true ↔ decRom c ≠ 255#8) ∧ (isHexDigit c = true ↔ decRom c ≤ 15#8) ∧
    (isHexDigit c = true ↔ (decRom c).extractLsb' 4 4 = 0#4) ∧ (decRom c ≤ 15#8 ∨ decRom c = 255#8)) ∧
  ((List.range 256).filter fun k => decRom (BitVec.ofNat 8 k) != 255#8).length = 22

/-! ### The lookups (40_rom_lookups.md) -/

/-- R90. -/
def Obligations.EncLookupAnswersTheRomEntry : Prop :=
  ∀ (n : Nibble) (s : State),
    exec (.encLookup n) s = .next (s.collect (.symbol (memRead standard (.enc n))))

/-- R92: also for an invalid symbol, whose value 255 is no error. -/
def Obligations.DecLookupAnswersValueOrSentinel : Prop :=
  ∀ (c : Symbol) (s : State),
    exec (.decLookup c) s = .next (s.collect (.value (memRead standard (.dec c)))) ∧
    memRead standard (.dec c) = if isHexDigit c then BitVec.ofNat 8 (digitValue c) else 255#8

/-- R91, R93, R26, derived by the spec: looking up in DEC_ROM what ENC_ROM answered gives the nibble back, and so does the
letter in the other case. -/
def Obligations.LookupsAreInverseOnNibbles : Prop :=
  ∀ (n : Nibble) (s : State), ∃ sym : Symbol,
    exec (.encLookup n) s = .next (s.collect (.symbol sym)) ∧
    ∀ (s' : State) (c : Symbol), CaseVariant sym c →
      exec (.decLookup c) s' = .next (s'.collect (.value (n.zeroExtend 8)))

/-! ### The encoder path (41_encoder.md) -/

/-- R100. That CASE.FOLD leaves inputs outside `0`-`9`, `a`-`f` unchanged is the spec's decision D4 (log entry 7). -/
def Obligations.CaseConvFoldsSixLetters : Prop :=
  ∀ (c : Symbol) (s : State),
    exec (.casePass c) s = .next (s.collect (.cased c)) ∧
    exec (.caseFold c) s = .next (s.collect (.cased (if isLowerCode c then c - 32#8 else c)))

/-- R101, derived by the spec: on its converted range the fold clears bit 5; there and nowhere else it changes its input; it
is idempotent. The last clause off the alphabet rests on D4 (log entry 7). -/
def Obligations.CaseFoldClearsBitFiveOfLetters : Prop :=
  ∀ c : Symbol,
    (isLowerCode c = true → response standard (.caseFold c) = .cased (c &&& 0xDF#8)) ∧
    (isLowerCode c = false → response standard (.caseFold c) = .cased c) ∧
    ∃ t, response standard (.caseFold c) = .cased t ∧ response standard (.caseFold t) = .cased t

/-- R104: the high nibble's symbol first, each symbol folded when `uppercase` is 1. -/
def Obligations.ExpandEmitsHighNibbleFirst : Prop :=
  ∀ (b : Byte) (s : State),
    ∃ s1 s2, s1 = memRead standard (.enc (b.extractLsb' 4 4)) ∧ s2 = memRead standard (.enc (b.extractLsb' 0 4)) ∧
      exec (.expandL b) s = .next (s.collect (.pair s1 s2)) ∧
      exec (.expandU b) s = .next (s.collect (.pair
        (if isLowerCode s1 then s1 - 32#8 else s1) (if isLowerCode s2 then s2 - 32#8 else s2)))

/-- R106, derived by the spec: EXPAND's range and injectivity for a fixed `uppercase`. -/
def Obligations.ExpandStaysInAlphabetAndIsInjective : Prop :=
  ∀ (u : Bool) (b b' : Byte),
    (expand standard b u).1 ∈ alphabet u ∧ (expand standard b u).2 ∈ alphabet u ∧
    (expand standard b u = expand standard b' u → b = b')

/-- R108 with R109: EXPAND of every byte, in order, with the one mode of the call; the length doubles. -/
def Obligations.EncodeExpandsEveryByteInOrder : Prop :=
  ∀ (x : ByteSequence) (s : State),
    (∃ y, exec (.encodeL x) s = .next (s.collect (.encoded y)) ∧ y.length = 2 * x.length ∧
      ∀ i b, x[i]? = some b →
        y[2 * i]? = some (expand standard b false).1 ∧ y[2 * i + 1]? = some (expand standard b false).2) ∧
    (∃ y, exec (.encodeU x) s = .next (s.collect (.encoded y)) ∧ y.length = 2 * x.length ∧
      ∀ i b, x[i]? = some b →
        y[2 * i]? = some (expand standard b true).1 ∧ y[2 * i + 1]? = some (expand standard b true).2)

/-- R110. -/
def Obligations.EncodeOfEmptyIsEmpty : Prop :=
  ∀ s : State,
    exec (.encodeL []) s = .next (s.collect (.encoded [])) ∧ exec (.encodeU []) s = .next (s.collect (.encoded []))

/-- R112, derived by the spec: chunks cut anywhere may be encoded separately and joined in order. -/
def Obligations.EncodeOfAppendIsAppend : Prop :=
  ∀ (x x' : ByteSequence) (s : State),
    (∃ y y', exec (.encodeL x) s = .next (s.collect (.encoded y)) ∧
      exec (.encodeL x') s = .next (s.collect (.encoded y')) ∧
      exec (.encodeL (x ++ x')) s = .next (s.collect (.encoded (y ++ y')))) ∧
    (∃ y y', exec (.encodeU x) s = .next (s.collect (.encoded y)) ∧
      exec (.encodeU x') s = .next (s.collect (.encoded y')) ∧
      exec (.encodeU (x ++ x')) s = .next (s.collect (.encoded (y ++ y'))))

/-- R113, derived by the spec: one case throughout, always valid, never an error of DECODE, injective. -/
def Obligations.EncodeOutputIsValidAndInjective : Prop :=
  ∀ (u : Bool) (x : ByteSequence),
    (∀ c ∈ encodeSeq standard u x, c ∈ alphabet u ∧ isHexDigit c = true) ∧
    (∀ g, ∃ y, decodeSeq standard g (encodeSeq standard u x) = .ok y) ∧
    ∀ x', encodeSeq standard u x = encodeSeq standard u x' → x = x'

/-! ### The decoder path (42_decoder.md) -/

/-- R120, R121, R123. That `c1` is the one reported when both symbols are invalid is the spec's decision D8 (R124, log
entry 8). -/
def Obligations.CompactStrictByteOrFirstInvalid : Prop :=
  ∀ (c1 c2 : Symbol) (s : State),
    exec (.compactS c1 c2) s = .next (s.collect (.compacted
      (if isHexDigit c1 = false then .error (.invalidByte c1)
       else if isHexDigit c2 = false then .error (.invalidByte c2)
       else .ok (BitVec.ofNat 8 (16 * digitValue c1 + digitValue c2)))))

/-- R122: tolerant mode never fails. The bytes of pairs with an invalid symbol rest on the spec's decision D3 (log entry 6). -/
def Obligations.CompactTolerantCombinesTheSentinel : Prop :=
  ∀ (c1 c2 : Symbol) (s : State),
    exec (.compactT c1 c2) s = .next (s.collect (.compacted (.ok
      (if isHexDigit c2 = false then 0xFF#8
       else if isHexDigit c1 = false then BitVec.ofNat 8 (0xF0 + digitValue c2)
       else BitVec.ofNat 8 (16 * digitValue c1 + digitValue c2)))))

/-- R127: the combine bit by bit, OR and not addition (decision D3, log entry 6). -/
def Obligations.CombineIsBitwise : Prop :=
  ∀ hi lo : Byte,
    (combine hi lo).extractLsb' 4 4 = hi.extractLsb' 0 4 ||| lo.extractLsb' 4 4 ∧
    (combine hi lo).extractLsb' 0 4 = lo.extractLsb' 0 4

/-- R126, derived by the spec: the modes differ on pairs with an invalid symbol and on no others. -/
def Obligations.CompactModeMattersOnlyForInvalid : Prop :=
  ∀ (c1 c2 : Symbol) (s : State),
    exec (.compactS c1 c2) s = exec (.compactT c1 c2) s ↔ isHexDigit c1 = true ∧ isHexDigit c2 = true

/-- R129, derived by the spec from R122: many inputs give one byte (rests on D3, log entry 6). -/
def Obligations.TolerantOutputIsNotReversible : Prop :=
  ∀ (c1 c2 : Symbol) (s : State),
    (isHexDigit c2 = false → exec (.compactT c1 c2) s = exec (.compactT 0x66#8 0x66#8) s) ∧
    (isHexDigit c1 = false → isHexDigit c2 = true →
      exec (.compactT c1 c2) s = exec (.compactT 0x66#8 c2) s)

/-- R132, R156: an odd length fails in both modes, whatever the symbols are, with OddLength as the whole result and before
any symbol is looked up. -/
def Obligations.DecodeOfOddLengthFails : Prop :=
  ∀ (x : ByteSequence) (s : State), x.length % 2 = 1 →
    exec (.decodeS x) s = .next (s.collect (.decoded (.error .oddLength))) ∧
    exec (.decodeT x) s = .next (s.collect (.decoded (.error .oddLength))) ∧
    romReads standard (.decodeS x) = [] ∧ romReads standard (.decodeT x) = []

/-- R136 (with R121, R133) in strict mode: an even sequence of hex digits decodes, its length halves, output byte `k` comes
from pair `k`. -/
def Obligations.DecodeStrictDecodesHexDigits : Prop :=
  ∀ (x : ByteSequence) (s : State), x.length % 2 = 0 → (∀ c ∈ x, isHexDigit c = true) →
    ∃ y, exec (.decodeS x) s = .next (s.collect (.decoded (.ok y))) ∧ y.length = x.length / 2 ∧
      ∀ k c1 c2, x[2 * k]? = some c1 → x[2 * k + 1]? = some c2 →
        y[k]? = some (BitVec.ofNat 8 (16 * digitValue c1 + digitValue c2))

/-- R136, R133, R128 in tolerant mode: every even sequence decodes, its length halves, and every pair yields its own byte in
its own place, the byte COMPACT.T gives that pair. -/
def Obligations.DecodeTolerantDecodesEveryEvenLength : Prop :=
  ∀ (x : ByteSequence) (s : State), x.length % 2 = 0 →
    ∃ y, exec (.decodeT x) s = .next (s.collect (.decoded (.ok y))) ∧ y.length = x.length / 2 ∧
      ∀ k c1 c2, x[2 * k]? = some c1 → x[2 * k + 1]? = some c2 →
        ∃ b, y[k]? = some b ∧ exec (.compactT c1 c2) s = .next (s.collect (.compacted (.ok b)))

/-- R136: whenever DECODE succeeds, in either mode, the output is exactly half as long as the input. -/
def Obligations.DecodeSuccessHalvesTheLength : Prop :=
  ∀ (x y : ByteSequence) (s : State),
    (exec (.decodeS x) s = .next (s.collect (.decoded (.ok y))) → 2 * y.length = x.length) ∧
    (exec (.decodeT x) s = .next (s.collect (.decoded (.ok y))) → 2 * y.length = x.length)

/-- R137. -/
def Obligations.DecodeOfEmptyIsEmpty : Prop :=
  ∀ s : State,
    exec (.decodeS []) s = .next (s.collect (.decoded (.ok []))) ∧
    exec (.decodeT []) s = .next (s.collect (.decoded (.ok [])))

/-- R157 with R135: strict mode fails with InvalidByte exactly on an even sequence with an invalid symbol, and reports the
one of least index, the error being the whole result. Least index is the spec's decision D8 (log entry 8). -/
def Obligations.DecodeStrictReportsTheLeastInvalid : Prop :=
  ∀ (x : ByteSequence) (s : State) (c : Symbol),
    exec (.decodeS x) s = .next (s.collect (.decoded (.error (.invalidByte c)))) ↔
      x.length % 2 = 0 ∧
      ∃ j : Nat, x[j]? = some c ∧ isHexDigit c = false ∧ ∀ i < j, ∀ d, x[i]? = some d → isHexDigit d = true

/-- R139, derived by the spec: what each mode can return. -/
def Obligations.DecodeModesAgreeWhereStrictSucceeds : Prop :=
  ∀ x : ByteSequence,
    (∀ y, decodeSeq standard false x = .ok y → decodeSeq standard true x = .ok y) ∧
    (decodeSeq standard false x = .error .oddLength ↔ decodeSeq standard true x = .error .oddLength) ∧
    (∀ c, decodeSeq standard false x = .error (.invalidByte c) →
      ∃ y, decodeSeq standard true x = .ok y ∧ y.length = x.length / 2) ∧
    ∀ c, decodeSeq standard true x ≠ .error (.invalidByte c)

/-- R140: the round trip, for both cases and both modes, and byte by byte. -/
def Obligations.DecodeOfEncodeIsIdentity : Prop :=
  ∀ s s' : State,
    (∀ x : ByteSequence,
      (∃ y, exec (.encodeL x) s = .next (s.collect (.encoded y)) ∧
        exec (.decodeS y) s' = .next (s'.collect (.decoded (.ok x))) ∧
        exec (.decodeT y) s' = .next (s'.collect (.decoded (.ok x)))) ∧
      (∃ y, exec (.encodeU x) s = .next (s.collect (.encoded y)) ∧
        exec (.decodeS y) s' = .next (s'.collect (.decoded (.ok x))) ∧
        exec (.decodeT y) s' = .next (s'.collect (.decoded (.ok x))))) ∧
    (∀ b : Byte,
      (∃ s1 s2, exec (.expandL b) s = .next (s.collect (.pair s1 s2)) ∧
        exec (.compactS s1 s2) s' = .next (s'.collect (.compacted (.ok b))) ∧
        exec (.compactT s1 s2) s' = .next (s'.collect (.compacted (.ok b)))) ∧
      (∃ s1 s2, exec (.expandU b) s = .next (s.collect (.pair s1 s2)) ∧
        exec (.compactS s1 s2) s' = .next (s'.collect (.compacted (.ok b))) ∧
        exec (.compactT s1 s2) s' = .next (s'.collect (.compacted (.ok b)))))

/-- R141, derived by the spec: changing the case of any letters changes no result, success or failure. -/
def Obligations.DecodeIsCaseInsensitive : Prop :=
  ∀ (x x' : ByteSequence) (s : State), List.Forall₂ CaseVariant x x' →
    exec (.decodeS x') s = exec (.decodeS x) s ∧ exec (.decodeT x') s = exec (.decodeT x) s

/-- R142, derived by the spec: chunks cut at an even index; the first failing chunk decides; one odd chunk makes the whole
odd. -/
def Obligations.DecodeOfAppendDecodesChunks : Prop :=
  ∀ (g : Bool) (x x' : ByteSequence),
    (x.length % 2 = 0 → x'.length % 2 = 0 →
      decodeSeq standard g (x ++ x') =
        match decodeSeq standard g x, decodeSeq standard g x' with
        | .error e, _ => .error e
        | .ok _, .error e => .error e
        | .ok y, .ok y' => .ok (y ++ y')) ∧
    (x.length % 2 ≠ x'.length % 2 → decodeSeq standard g (x ++ x') = .error .oddLength)

/-- R144, derived by the spec: decode-then-encode gives the input back exactly when its length is even, every symbol is
valid and every letter has the case the encoder emits. -/
def Obligations.EncodeOfDecodeOnlyInOneCase : Prop :=
  ∀ (g u : Bool) (x : ByteSequence),
    (∃ y, decodeSeq standard g x = .ok y ∧ encodeSeq standard u y = x) ↔
      x.length % 2 = 0 ∧ (∀ c ∈ x, isHexDigit c = true) ∧ lettersInCase u x

/-! ### Errors (60_exceptions.md) -/

/-- R151, R152: which operation delivers which error, when, and what the error carries. -/
def Obligations.ErrorsComeOnlyFromTheDecoder : Prop :=
  ∀ (i : Instr) (s : State), ∃ r, exec i s = .next (s.collect r) ∧
    (r.error? = some .oddLength ↔ ∃ x, x.length % 2 = 1 ∧ (i = .decodeS x ∨ i = .decodeT x)) ∧
    ((∃ c, r.error? = some (.invalidByte c)) ↔
      (∃ c1 c2, i = .compactS c1 c2 ∧ (isHexDigit c1 = false ∨ isHexDigit c2 = false)) ∨
      ∃ x, i = .decodeS x ∧ x.length % 2 = 0 ∧ ∃ c ∈ x, isHexDigit c = false) ∧
    ∀ c, r.error? = some (.invalidByte c) →
      isHexDigit c = false ∧
        ((∃ c1 c2, i = .compactS c1 c2 ∧ (c = c1 ∨ c = c2)) ∨ ∃ x, i = .decodeS x ∧ c ∈ x)

/-- R71, R72, R78, R153: the rendering of results as `err`, `err_sym` and the value field (the spec's decision D7, log
entry 9). -/
def Obligations.ErrorCodesAndPadding : Prop :=
  (∀ r : Except DecodeError Byte,
    errCode r ≠ 3#2 ∧ (errCode r ≠ 2#2 → errSym r = 0#8) ∧ (errCode r ≠ 0#2 → byteField r = 0#8)) ∧
  (∀ r : Except DecodeError ByteSequence,
    errCode r ≠ 3#2 ∧ (errCode r ≠ 2#2 → errSym r = 0#8) ∧ (errCode r ≠ 0#2 ↔ (decodeOutputs r).2.2 = none)) ∧
  ∀ (c1 c2 : Symbol) (g : Bool), errCode (compact standard c1 c2 g) ≠ 1#2

/-! ### Encodings (30_encoding.md) -/

/-- The decoder reads back every operation the encoder writes, with every operand at every value. -/
def Obligations.DecodeOfEncodedInstrIsIdentity : Prop :=
  ∀ i : Instr, decodeRequest (encodeInstr i) = i

/-- Every request is exactly one operation's: no bit of a request is ignored, and none is illegal (R76). -/
def Obligations.EncodeOfDecodedRequestIsIdentity : Prop :=
  ∀ r : Request, encodeInstr (decodeRequest r) = r

/-- R76: every bit pattern of every request is accepted and has a defined result, nothing traps, and the only failures are
those of COMPACT and DECODE. -/
def Obligations.EveryRequestHasADefinedResult : Prop :=
  ∀ r : Request, ∃ out, (∀ s : State, exec (decodeRequest r) s = .next (s.collect out)) ∧
    (out.error? ≠ none → r.block = .compactor ∨ r.block = .decode)

/-- R67 to R72 (this packing is the spec's decision D6): words of 95_test_vectors.md sections 2 and 3. -/
def Obligations.WordsOfTheTestVectorsDecode : Prop :=
  decodeRequest (.encRom 0xB#4) = .encLookup 0xB#4 ∧
  decodeRequest (.caseConv 0x161#9) = .caseFold 0x61#8 ∧
  decodeRequest (.expander 0x06C#9) = .expandL 0x6C#8 ∧
  decodeRequest (.compactor 0x17A34#17) = .compactT 0x7A#8 0x34#8

/-- Raw words: exactly those that fit a block's format are accepted, and a request's own word gives it back. What is refused
is the MODEL'S CHOICE (log entry 19). -/
def Obligations.RawWordsAreAcceptedWhenTheyFit : Prop :=
  (∀ r : Request, Request.ofWord r.block r.word r.sequence = .ok r) ∧
  ∀ (b : Block) (w : Nat) (x : ByteSequence),
    (∃ i, decodeWord b w x = .ok i) ↔ w < 2 ^ b.width ∧ (b.takesSequence = false → x = [])

/-- R80, R81, R82: the call syntax and the defaults of an omitted mode argument. -/
def Obligations.OmittedModeTakesTheDefault : Prop :=
  ∀ x : ByteSequence,
    decodeRequest (callEncode x none) = .encodeL x ∧ decodeRequest (callEncode x (some 0#1)) = .encodeL x ∧
    decodeRequest (callEncode x (some 1#1)) = .encodeU x ∧ decodeRequest (callDecode x none) = .decodeT x ∧
    decodeRequest (callDecode x (some 1#1)) = .decodeT x ∧ decodeRequest (callDecode x (some 0#1)) = .decodeS x ∧
    (∀ n, decodeRequest (callEncodeNibble n) = .encLookup n) ∧ ∀ c, decodeRequest (callDecodeSymbol c) = .decLookup c

/-! ### Memory and ordering (20_memory.md) -/

/-- R41, derived by the spec: an operation's outputs depend on the ROM locations it reads and on no others. -/
def Obligations.OutputsDependOnlyOnTheReads : Prop :=
  ∀ (cfg cfg' : Config) (i : Instr),
    cfg'.tol = cfg.tol → cfg'.fold = cfg.fold → cfg'.c1First = cfg.c1First →
    (∀ a ∈ romReads cfg i, memRead cfg' a = memRead cfg a) → response cfg' i = response cfg i

/-- R41, derived by the spec: how many reads, and in which space. The encoder path never touches DEC, the decoder path never
touches ENC. That a failing strict pair counts two reads is DEDUCED (log entry 18). -/
def Obligations.RomReadCounts : Prop :=
  (∀ n, (romReads standard (.encLookup n)).length = 1) ∧ (∀ c, (romReads standard (.decLookup c)).length = 1) ∧
  (∀ b, (romReads standard (.expandL b)).length = 2 ∧ (romReads standard (.expandU b)).length = 2) ∧
  (∀ c1 c2, (romReads standard (.compactS c1 c2)).length = 2 ∧ (romReads standard (.compactT c1 c2)).length = 2) ∧
  (∀ c, romReads standard (.casePass c) = [] ∧ romReads standard (.caseFold c) = []) ∧
  (∀ x : ByteSequence,
    (romReads standard (.encodeL x)).length = 2 * x.length ∧ (romReads standard (.encodeU x)).length = 2 * x.length ∧
    (x.length % 2 = 1 → romReads standard (.decodeS x) = [] ∧ romReads standard (.decodeT x) = []) ∧
    (x.length % 2 = 0 → (romReads standard (.decodeT x)).length = x.length) ∧
    (romReads standard (.decodeS x)).length ≤ x.length ∧
    (∀ y, decodeSeq standard false x = .ok y → (romReads standard (.decodeS x)).length = x.length)) ∧
  ∀ (i : Instr) (a : Addr), a ∈ romReads standard i →
    (a.inEnc = true ↔
      (∃ n, i = .encLookup n) ∨ (∃ b, i = .expandL b ∨ i = .expandU b) ∨ ∃ x, i = .encodeL x ∨ i = .encodeU x)

/-- R51 (a), (b): an operation's outputs depend on its inputs alone, never on what ran before. -/
def Obligations.OutputsIgnoreTheHistory : Prop :=
  ∀ s s' : State, s.requests = s'.requests →
    ∃ rest out, step s = .next { requests := rest, responses := s.responses ++ out } ∧
      step s' = .next { requests := rest, responses := s'.responses ++ out }

/-- R51 (c): the order between operations is unobservable; presenting the same requests in another order gives each request
the same outputs. -/
def Obligations.ReorderedProgramsGiveTheSameOutputs : Prop :=
  ∀ (p p' : List Request) (t t' : State), p.Perm p' →
    Sys2Proof.core.run p.length (State.reset.withRequests p) = .next t →
    Sys2Proof.core.run p'.length (State.reset.withRequests p') = .next t' →
    (p.zip t.responses).Perm (p'.zip t'.responses)

/-! ### Open parameters (93_implementation_defined.md U1, U2, U3) -/

/-- The claims Part 1 calls safe for every admissible choice. -/
def Obligations.SafeForEveryAdmissibleMachine : Prop :=
  ∀ cfg : Config, cfg.Admissible →
    (∀ (u : Bool) (x : ByteSequence), encodeSeq cfg u x = encodeSeq standard u x) ∧
    (∀ x : ByteSequence, x.length % 2 = 0 → ∃ y, decodeSeq cfg true x = .ok y ∧ y.length = x.length / 2 ∧
      ∀ k c1 c2, x[2 * k]? = some c1 → x[2 * k + 1]? = some c2 → isHexDigit c1 = true → isHexDigit c2 = true →
        y[k]? = some (BitVec.ofNat 8 (16 * digitValue c1 + digitValue c2))) ∧
    (∀ (g : Bool) (x : ByteSequence), x.length % 2 = 1 → decodeSeq cfg g x = .error .oddLength) ∧
    (∀ x : ByteSequence, (∀ c ∈ x, isHexDigit c = true) → decodeSeq cfg false x = decodeSeq standard false x) ∧
    ∀ x : ByteSequence, x.length % 2 = 0 → (∃ c ∈ x, isHexDigit c = false) →
      ∃ c ∈ x, isHexDigit c = false ∧ decodeSeq cfg false x = .error (.invalidByte c)

/-- U3, "Safe either way": on every admissible machine, whichever order it examines a pair in, strict DECODE of an even input
with an invalid symbol reports an invalid symbol of the first pair that has any. -/
def Obligations.StrictFailureIsOfTheFirstInvalidPair : Prop :=
  ∀ cfg : Config, cfg.Admissible → ∀ x : ByteSequence, x.length % 2 = 0 → (∃ c ∈ x, isHexDigit c = false) →
    ∃ (k : Nat) (c1 c2 c : Symbol), x[2 * k]? = some c1 ∧ x[2 * k + 1]? = some c2 ∧
      (∀ j < 2 * k, ∀ d, x[j]? = some d → isHexDigit d = true) ∧
      (c = c1 ∨ c = c2) ∧ isHexDigit c = false ∧ decodeSeq cfg false x = .error (.invalidByte c)

/-! ### The machine -/

/-- A step takes the host's next request, decodes it and runs the operation on the state without that request; with none
left (the MODEL'S CHOICE, log entry 4) it changes nothing. -/
def Obligations.StepRunsTheDecodedRequest : Prop :=
  (∀ (r : Request) (rest : List Request) (done : List Response),
    step { requests := r :: rest, responses := done } =
      exec (decodeRequest r) { requests := rest, responses := done }) ∧
  ∀ done : List Response, step { requests := [], responses := done } = .next { requests := [], responses := done }

/-- A table word placed as the next request is decoded and run by the very next step, and leaves the rest of the host's
program as it was. The block such a word goes to is the MODEL'S CHOICE (log entry 5). -/
def Obligations.PlacedTableWordRunsNext : Prop :=
  ∀ (s : State) (nbits w : Nat) (i : Instr), decodeTableWord nbits w = some i →
    step (s.withFetchWord nbits w) = exec i s

/-- Every operation runs in every state; it appends one response, which does not depend on the state, and changes nothing
else (10_state.md R20, R29; 60_exceptions.md R163, also for a failure). -/
def Obligations.EveryOperationOnlyDeliversOneResponse : Prop :=
  ∀ i : Instr, ∃ out, ∀ s : State, ∃ t, exec i s = .next t ∧
    t.requests = s.requests ∧ t.responses = s.responses ++ [out]

/-- No run of any length is ended by a fault or a refusal (30_encoding.md R76; 93_implementation_defined.md, end of
Part 1). -/
def Obligations.EveryRunIsSafe : Prop :=
  ∀ (n : Nat) (s : State), runsSafely n s

/-- Every program is answered request by request: after as many steps as there are requests the host holds, in order, each
request's outputs as a function of that request alone (20_memory.md R51, 70_reset_and_hazards.md R186). -/
def Obligations.RunAnswersEveryRequestInOrder : Prop :=
  ∀ s : State, Sys2Proof.core.run s.requests.length s =
    .next { requests := []
            responses := s.responses ++ s.requests.map fun r => response standard (decodeRequest r) }

/-- Every step keeps the invariant that each collected response is one the spec allows: alphabets, the range of `val`, one
case per encoder output, even encoder length, no OddLength from COMPACT, no reserved error. -/
def Obligations.StepKeepsResponsesLegal : Prop :=
  ∀ s t : State, s.Inv → step s = .next t → t.Inv

/-- The invariant of StepKeepsResponsesLegal holds at reset, where nothing has been collected: the empty list is the MODEL'S
CHOICE (log entry 2), since the spec gives the hardware no such state (R180). -/
def Obligations.ResetResponsesAreLegal : Prop := State.reset.Inv

/-- Running one EXPAND request per byte, the mode held, and joining the pairs in order is ENCODE (41_encoder.md R108;
95_test_vectors.md P1). -/
def Obligations.EncodeIsARunOfExpands : Prop :=
  ∀ (u : Bool) (x : ByteSequence) (done : List Response), ∃ out,
    Sys2Proof.core.run x.length { requests := expandProgram u x, responses := done } =
      .next { requests := [], responses := done ++ out } ∧
    response standard (if u then .encodeU x else .encodeL x) = .encoded (collectSymbols out)

/-- Running one COMPACT request per pair of an even sequence, the mode held, is DECODE, where the host collects the bytes up
to the first failure and takes that failure as the whole result (42_decoder.md R131; 95_test_vectors.md P2, P4, P5). The
run itself presents every pair; that the pairs after a failure change nothing is R52 and R134. -/
def Obligations.DecodeIsARunOfCompacts : Prop :=
  ∀ (g : Bool) (x : ByteSequence) (done : List Response), x.length % 2 = 0 → ∃ out,
    Sys2Proof.core.run (x.length / 2) { requests := compactProgram g x, responses := done } =
      .next { requests := [], responses := done ++ out } ∧
    response standard (if g then .decodeT x else .decodeS x) = .decoded (collectBytes out)
end

