-- ==== Sys2Proof/Laws/State.lean ====
section
/-! SUPPORT. One lemma per field per update of State, so that no later proof unfolds a record update. -/

namespace Sys2Proof.Machine

@[simp] theorem State.collect_requests (s : State) (r : Response) : (s.collect r).requests = s.requests := rfl

@[simp] theorem State.collect_responses (s : State) (r : Response) :
    (s.collect r).responses = s.responses ++ [r] := rfl

@[simp] theorem State.withRequests_requests (s : State) (rs : List Request) :
    (s.withRequests rs).requests = rs := rfl

@[simp] theorem State.withRequests_responses (s : State) (rs : List Request) :
    (s.withRequests rs).responses = s.responses := rfl

@[simp] theorem State.withRequests_withRequests (s : State) (rs rs' : List Request) :
    (s.withRequests rs).withRequests rs' = s.withRequests rs' := rfl

@[simp] theorem State.collect_withRequests (s : State) (r : Response) (rs : List Request) :
    (s.collect r).withRequests rs = (s.withRequests rs).collect r := rfl

@[simp] theorem State.reset_requests : State.reset.requests = [] := rfl

@[simp] theorem State.reset_responses : State.reset.responses = [] := rfl

theorem State.ext_fields {s t : State} (hq : s.requests = t.requests) (hr : s.responses = t.responses) :
    s = t := by
  cases s
  cases t
  simp_all

end Sys2Proof.Machine
end

