-- ==== Sys2Proof/Laws/Ops.lean ====
section
/-! SUPPORT. What the shared operations do: delivery, the two ROMs, nibble extraction and byte assembly. -/

namespace Sys2Proof.Machine

/-! ### Delivery -/

/-- Everything delivery can do. -/
theorem deliver_next {r : Response} {s t : State} (h : deliver r s = .next t) :
    t.requests = s.requests ∧ t.responses = s.responses ++ [r] := by
  cases h
  exact ⟨rfl, rfl⟩

theorem deliver_eq (r : Response) (s : State) : deliver r s = .next (s.collect r) := rfl

/-! ### The ROMs -/

@[simp] theorem standard_encRom : standard.encRom = encRom := rfl
@[simp] theorem standard_decRom : standard.decRom = decRom := rfl
@[simp] theorem standard_tol : standard.tol = combine := rfl
@[simp] theorem standard_fold : standard.fold = foldCase := rfl
@[simp] theorem standard_c1First : standard.c1First = true := rfl
@[simp] theorem memRead_enc (cfg : Config) (n : Nibble) : memRead cfg (.enc n) = cfg.encRom n := rfl
@[simp] theorem memRead_dec (cfg : Config) (c : Symbol) : memRead cfg (.dec c) = cfg.decRom c := rfl
@[simp] theorem encLookup_eq (cfg : Config) (n : Nibble) : encLookup cfg n = cfg.encRom n := rfl
@[simp] theorem decLookup_eq (cfg : Config) (c : Symbol) : decLookup cfg c = cfg.decRom c := rfl

/-- The encode alphabet in value order is ENC_ROM in address order (R21, R60). -/
theorem encTable_eq_lowerAlphabet : encTable = lowerAlphabet := rfl

/-- Every entry of DEC_ROM is a nibble value or the sentinel, and which it is tells a hex digit apart (R25). -/
theorem decRom_cases (c : Symbol) :
    (isHexDigit c = true ∧ ∃ n : Nibble, decRom c = n.zeroExtend 8) ∨
      (isHexDigit c = false ∧ decRom c = INVALID) := by
  revert c
  decide

theorem decRom_eq_invalid_iff (c : Symbol) : decRom c = INVALID ↔ isHexDigit c = false := by
  revert c
  decide

/-- DEC_ROM answers the low four bits of its entry on a hex digit. -/
theorem decRom_of_isHexDigit {c : Symbol} (h : isHexDigit c = true) :
    decRom c = ((decRom c).extractLsb' 0 4).zeroExtend 8 := by
  revert c
  decide

theorem decRom_encRom (n : Nibble) : decRom (encRom n) = n.zeroExtend 8 := by
  revert n
  decide

/-- Folding an emitted symbol does not change what it decodes to (R26). -/
theorem decRom_foldCase_encRom (n : Nibble) : decRom (foldCase (encRom n)) = n.zeroExtend 8 := by
  revert n
  decide

theorem encRom_injective {m n : Nibble} (h : encRom m = encRom n) : m = n := by
  revert m n
  decide

theorem foldCase_encRom_injective {m n : Nibble} (h : foldCase (encRom m) = foldCase (encRom n)) : m = n := by
  revert m n
  decide

theorem encRom_mem_lowerAlphabet (n : Nibble) : encRom n ∈ lowerAlphabet := by
  revert n
  decide

theorem foldCase_encRom_mem_upperAlphabet (n : Nibble) : foldCase (encRom n) ∈ upperAlphabet := by
  revert n
  decide

/-! ### Nibbles and bytes -/

theorem hiNibble_append (h l : Nibble) : hiNibble (h ++ l) = h := by
  revert h l
  decide

theorem loNibble_append (h l : Nibble) : loNibble (h ++ l) = l := by
  revert h l
  decide

theorem hiNibble_append_loNibble (b : Byte) : hiNibble b ++ loNibble b = b := by
  revert b
  decide

/-- R121: two nibble values merge without overlap. -/
theorem combine_nibbles (h l : Nibble) : combine (h.zeroExtend 8) (l.zeroExtend 8) = h ++ l := by
  revert h l
  decide

/-- R122 (a): an invalid first symbol alone forces the high nibble. -/
theorem combine_invalid_left (l : Nibble) : combine INVALID (l.zeroExtend 8) = 0xF#4 ++ l := by
  revert l
  decide

/-- R122 (b), (c): an invalid second symbol forces the byte. -/
theorem combine_invalid_right (h : Byte) : combine h INVALID = 0xFF#8 := by
  revert h
  decide

end Sys2Proof.Machine
end

