-- ==== Sys2Proof/Laws/Blocks.lean ====
section
/-! SUPPORT. The block functions' defining equations and their cases, one set per function; later proofs cite these. -/

namespace Sys2Proof.Machine

/-! ### Encoder path -/

@[simp] theorem caseConv_false (cfg : Config) (s : Symbol) : caseConv cfg s false = s := rfl
@[simp] theorem caseConv_true (cfg : Config) (s : Symbol) : caseConv cfg s true = cfg.fold s := rfl

@[simp] theorem expand_fst (cfg : Config) (b : Byte) (u : Bool) :
    (expand cfg b u).1 = caseConv cfg (cfg.encRom (hiNibble b)) u := rfl

@[simp] theorem expand_snd (cfg : Config) (b : Byte) (u : Bool) :
    (expand cfg b u).2 = caseConv cfg (cfg.encRom (loNibble b)) u := rfl

@[simp] theorem encodeSeq_nil (cfg : Config) (u : Bool) : encodeSeq cfg u [] = [] := rfl

@[simp] theorem encodeSeq_cons (cfg : Config) (u : Bool) (b : Byte) (x : ByteSequence) :
    encodeSeq cfg u (b :: x) = (expand cfg b u).1 :: (expand cfg b u).2 :: encodeSeq cfg u x := rfl

/-- An emitted symbol decodes to its nibble, in either case. -/
theorem decRom_caseConv_encRom (n : Nibble) (u : Bool) :
    decRom (caseConv standard (encRom n) u) = n.zeroExtend 8 := by
  cases u
  · exact decRom_encRom n
  · exact decRom_foldCase_encRom n

/-- An emitted symbol lies in the alphabet of its case (R60). -/
theorem caseConv_encRom_mem_alphabet (n : Nibble) (u : Bool) :
    caseConv standard (encRom n) u ∈ alphabet u := by
  cases u
  · exact encRom_mem_lowerAlphabet n
  · exact foldCase_encRom_mem_upperAlphabet n

/-! ### Decoder path -/

/-- Tolerant COMPACT never fails, on any machine (R122). -/
@[simp] theorem compact_tolerant (cfg : Config) (c1 c2 : Symbol) :
    compact cfg c1 c2 true = .ok (cfg.tol (cfg.decRom c1) (cfg.decRom c2)) := rfl

/-- COMPACT depends on a machine only through the two entries it reads and the open parameters. -/
theorem compact_congr {cfg cfg' : Config} {c1 c2 : Symbol} (g : Bool)
    (h1 : cfg'.decRom c1 = cfg.decRom c1) (h2 : cfg'.decRom c2 = cfg.decRom c2) (ht : cfg'.tol = cfg.tol)
    (hf : cfg'.c1First = cfg.c1First) : compact cfg' c1 c2 g = compact cfg c1 c2 g := by
  have e1 : decLookup cfg' c1 = decLookup cfg c1 := h1
  have e2 : decLookup cfg' c2 = decLookup cfg c2 := h2
  unfold compact reportedInvalid
  rw [e1, e2, ht, hf]

/-- The two orders of examination report nothing on a pair of hex digits, whatever the parameters (U3). -/
theorem reportedInvalid_of_valid {cfg : Config} {c1 c2 : Symbol} (h1 : cfg.decRom c1 ≠ INVALID)
    (h2 : cfg.decRom c2 ≠ INVALID) : reportedInvalid cfg c1 c2 = none := by
  unfold reportedInvalid
  cases cfg.c1First <;> simp [h1, h2]

theorem reportedInvalid_standard (c1 c2 : Symbol) :
    reportedInvalid standard c1 c2 =
      if isHexDigit c1 = false then some c1 else if isHexDigit c2 = false then some c2 else none := by
  simp only [reportedInvalid, decLookup_eq, standard_decRom, standard_c1First, decRom_eq_invalid_iff]

/-- Everything strict COMPACT can do (R123, R124). -/
theorem compact_strict_cases (c1 c2 : Symbol) :
    (isHexDigit c1 = false ∧ compact standard c1 c2 false = .error (.invalidByte c1)) ∨
      (isHexDigit c1 = true ∧ isHexDigit c2 = false ∧ compact standard c1 c2 false = .error (.invalidByte c2)) ∨
      (isHexDigit c1 = true ∧ isHexDigit c2 = true ∧
        compact standard c1 c2 false = .ok (combine (decRom c1) (decRom c2))) := by
  cases h1 : isHexDigit c1 <;> cases h2 : isHexDigit c2 <;>
    simp [compact, reportedInvalid_standard, raise, h1, h2]

@[simp] theorem decodePairs_nil (cfg : Config) (g : Bool) : decodePairs cfg g [] = .ok [] := rfl

theorem decodePairs_cons_error {cfg : Config} {g : Bool} {c1 c2 : Symbol} {e : DecodeError} (x : ByteSequence)
    (h : compact cfg c1 c2 g = .error e) : decodePairs cfg g (c1 :: c2 :: x) = .error e := by
  simp only [decodePairs, h]

theorem decodePairs_cons_ok {cfg : Config} {g : Bool} {c1 c2 : Symbol} {b : Byte} (x : ByteSequence)
    (h : compact cfg c1 c2 g = .ok b) :
    decodePairs cfg g (c1 :: c2 :: x) = (decodePairs cfg g x).map (b :: ·) := by
  simp only [decodePairs, h]
  cases decodePairs cfg g x <;> rfl

theorem decodeSeq_of_odd {x : ByteSequence} (cfg : Config) (g : Bool) (h : x.length % 2 = 1) :
    decodeSeq cfg g x = .error .oddLength := by
  simp [decodeSeq, raise, h]

theorem decodeSeq_of_even {x : ByteSequence} (cfg : Config) (g : Bool) (h : x.length % 2 = 0) :
    decodeSeq cfg g x = decodePairs cfg g x := by
  simp [decodeSeq, h]

/-- Induction over a sequence pair by pair, for sequences of even length. -/
theorem even_induction {P : ByteSequence → Prop} (nil : P [])
    (pair : ∀ c1 c2 x, x.length % 2 = 0 → P x → P (c1 :: c2 :: x)) :
    ∀ x : ByteSequence, x.length % 2 = 0 → P x
  | [], _ => nil
  | [_], h => by simp at h
  | c1 :: c2 :: x, h => by
    have hx : x.length % 2 = 0 := by simp at h; omega
    exact pair c1 c2 x hx (even_induction nil pair x hx)

end Sys2Proof.Machine
end

