-- ==== Sys2Proof/Laws/PerInstr.lean ====
section
/-! SUPPORT. Statements made instruction by instruction.
Family FormatFits: the request of an operation goes to the block of its row of the opcode table, its word fits the row's
width, and no sequence stands beside a word whose format has none (30_encoding.md R67 to R72, R75). -/

namespace Sys2Proof

/-- The block of an operation's row (opcode_table.json, "block"). -/
def Instr.rowBlock : Instr → Block
  | .encLookup _ => .encRom
  | .decLookup _ => .decRom
  | .casePass _ => .caseConv
  | .caseFold _ => .caseConv
  | .expandL _ => .expander
  | .expandU _ => .expander
  | .compactS _ _ => .compactor
  | .compactT _ _ => .compactor
  | .encodeL _ => .encode
  | .encodeU _ => .encode
  | .decodeS _ => .decode
  | .decodeT _ => .decode

end Sys2Proof

namespace Sys2Proof.Laws.FormatFits

open Sys2Proof

def Statement (i : Instr) : Prop :=
  (encodeInstr i).block = i.rowBlock ∧ (encodeInstr i).word < 2 ^ i.rowBlock.width ∧
    (i.rowBlock.takesSequence = false → (encodeInstr i).sequence = [])

theorem encLookup (n : Nibble) : Statement (.encLookup n) := ⟨rfl, n.isLt, fun _ => rfl⟩
theorem decLookup (c : Symbol) : Statement (.decLookup c) := ⟨rfl, c.isLt, fun _ => rfl⟩
theorem casePass (s : Symbol) : Statement (.casePass s) := ⟨rfl, (0#1 ++ s).isLt, fun _ => rfl⟩
theorem caseFold (s : Symbol) : Statement (.caseFold s) := ⟨rfl, (1#1 ++ s).isLt, fun _ => rfl⟩
theorem expandL (b : Byte) : Statement (.expandL b) := ⟨rfl, (0#1 ++ b).isLt, fun _ => rfl⟩
theorem expandU (b : Byte) : Statement (.expandU b) := ⟨rfl, (1#1 ++ b).isLt, fun _ => rfl⟩
theorem compactS (c1 c2 : Symbol) : Statement (.compactS c1 c2) := ⟨rfl, (0#1 ++ c1 ++ c2).isLt, fun _ => rfl⟩
theorem compactT (c1 c2 : Symbol) : Statement (.compactT c1 c2) := ⟨rfl, (1#1 ++ c1 ++ c2).isLt, fun _ => rfl⟩
theorem encodeL (x : ByteSequence) : Statement (.encodeL x) := ⟨rfl, (0#1).isLt, nofun⟩
theorem encodeU (x : ByteSequence) : Statement (.encodeU x) := ⟨rfl, (1#1).isLt, nofun⟩
theorem decodeS (x : ByteSequence) : Statement (.decodeS x) := ⟨rfl, (0#1).isLt, nofun⟩
theorem decodeT (x : ByteSequence) : Statement (.decodeT x) := ⟨rfl, (1#1).isLt, nofun⟩

end Sys2Proof.Laws.FormatFits
end

