-- ==== Sys2Proof/Laws/Step.lean ====
section
/-! SUPPORT. What an operation and a step do, said once: every operation delivers its response and nothing else. -/

namespace Sys2Proof.Machine

/-- Every meaning is the delivery of its operation's outputs. -/
theorem exec_eq_deliver (i : Instr) (s : State) : exec i s = deliver (response standard i) s := by
  cases i <;> rfl

/-- Everything an operation can do to the state. -/
theorem exec_next {i : Instr} {s t : State} (h : exec i s = .next t) : t = s.collect (response standard i) := by
  rw [exec_eq_deliver] at h
  cases h
  rfl

theorem step_nil {s : State} (h : s.requests = []) : step s = .next s := by
  simp only [step, h]

theorem step_cons {s : State} {r : Request} {rest : List Request} (h : s.requests = r :: rest) :
    step s = exec (decodeRequest r) (s.withRequests rest) := by
  simp only [step, h]

/-- Everything a step can do. -/
theorem step_cases {s t : State} (h : step s = .next t) :
    (s.requests = [] ∧ t = s) ∨
      ∃ r rest, s.requests = r :: rest ∧
        t = (s.withRequests rest).collect (response standard (decodeRequest r)) := by
  cases hq : s.requests with
  | nil =>
    rw [step_nil hq] at h
    cases h
    exact .inl ⟨rfl, rfl⟩
  | cons r rest =>
    rw [step_cons hq] at h
    exact .inr ⟨r, rest, rfl, exec_next h⟩

end Sys2Proof.Machine
end

