-- ==== Sys2Proof/Tests/Slice0.lean ====
section
/-! SUPPORT. The model's own tests. Expected results come from the spec: the tables of 95_test_vectors.md (S1 to S13, sections
2.1 to 2.7, P1 to P6) and the words of 30_encoding.md R67 to R72, each named in the test's comment. After the tests stand
the witnesses: for each statement with hypotheses, operands and states that meet them. -/

namespace Sys2Proof.Tests

open Sys2Proof Sys2Proof.Machine

/-! ### Well-formedness: each check refuses an ill-formed operation (LEN_MAX, 00_scope.md R8) -/

theorem test_wf_encodeL_too_long : (Instr.encodeL [0x48, 0x65, 0x6C]).wf (some 2) = false := by decide
theorem test_wf_encodeL_output_too_long : (Instr.encodeL [0x48, 0x65, 0x6C]).wf (some 4) = false := by decide
theorem test_wf_encodeU_output_too_long : (Instr.encodeU [0x48, 0x65, 0x6C]).wf (some 5) = false := by decide
theorem test_wf_decodeS_too_long : (Instr.decodeS [0x34, 0x61, 0x34]).wf (some 2) = false := by decide
theorem test_wf_decodeT_too_long : (Instr.decodeT [0x34, 0x61, 0x34]).wf (some 2) = false := by decide
theorem test_wf_within_bound : (Instr.encodeL [0x48, 0x65]).wf (some 4) = true := by decide
theorem test_wf_unbounded : (Instr.decodeT [0x34, 0x61, 0x34]).wf none = true := by decide

/-! ### Decoding: every constructor from a word written out from R67 to R72, most significant field first -/

theorem test_decode_encLookup : decodeRequest (.encRom 0b1011#4) = .encLookup 0xB := by decide
theorem test_decode_decLookup : decodeRequest (.decRom 0b01000010#8) = .decLookup 0x42 := by decide
theorem test_decode_casePass : decodeRequest (.caseConv 0b001100010#9) = .casePass 0x62 := by decide
theorem test_decode_caseFold : decodeRequest (.caseConv 0b101100010#9) = .caseFold 0x62 := by decide
theorem test_decode_expandL : decodeRequest (.expander 0b010101011#9) = .expandL 0xAB := by decide
theorem test_decode_expandU : decodeRequest (.expander 0b101101100#9) = .expandU 0x6C := by decide
theorem test_decode_compactS : decodeRequest (.compactor 0b00011010001100001#17) = .compactS 0x34 0x61 := by decide
theorem test_decode_compactT : decodeRequest (.compactor 0b10111101000110100#17) = .compactT 0x7A 0x34 := by decide
theorem test_decode_encodeL : decodeRequest (.encode 0b0#1 [0x48]) = .encodeL [0x48] := by decide
theorem test_decode_encodeU : decodeRequest (.encode 0b1#1 [0x48]) = .encodeU [0x48] := by decide
theorem test_decode_decodeS : decodeRequest (.decode 0b0#1 [0x34, 0x61]) = .decodeS [0x34, 0x61] := by decide
theorem test_decode_decodeT : decodeRequest (.decode 0b1#1 [0x34, 0x61]) = .decodeT [0x34, 0x61] := by decide

theorem test_decodeWord_too_wide : decodeWord .expander 0x200 [] = .error (.wordTooWide .expander) := by decide
theorem test_decodeWord_no_sequence :
    decodeWord .compactor 0x03461 [0x00] = .error (.sequenceNotTaken .compactor) := by decide
/-- The request word of `z` `4` in tolerant mode, 95_test_vectors.md 2.5. -/
theorem test_decodeWord_compactT : decodeWord .compactor 0x17A34 [] = .ok (.compactT 0x7A 0x34) := by decide

/-! ### One step of each operation -/

/-- The host's bench with one request to present. -/
def bench (r : Request) : State := { requests := [r], responses := [] }

/-- The output of one step, if it answers a next state that has collected one response and has no request left. -/
def output (s : State) : Option Response :=
  match step s with
  | .next t => if t.requests = [] then t.responses.head? else none
  | .fault _ => none
  | .refused _ => none

/-- P6 step 0. -/
theorem test_encLookup_b : output (bench (.encRom 0xB)) = some (.symbol 0x62) := by decide
/-- 2.1: the last digit; the next entry jumps. -/
theorem test_encLookup_9 : output (bench (.encRom 0x9)) = some (.symbol 0x39) := by decide
/-- P6 step 2. -/
theorem test_decLookup_B : output (bench (.decRom 0x42)) = some (.value 0x0B) := by decide
/-- 2.2: just above `9`. -/
theorem test_decLookup_colon : output (bench (.decRom 0x3A)) = some (.value 0xFF) := by decide
/-- 2.3: `f` passes. -/
theorem test_casePass_f : output (bench (.caseConv 0x066)) = some (.cased 0x66) := by decide
/-- 2.3: `f` folds. -/
theorem test_caseFold_f : output (bench (.caseConv 0x166)) = some (.cased 0x46) := by decide
/-- 2.3: `g` is just above the range (rests on D4). -/
theorem test_caseFold_g : output (bench (.caseConv 0x167)) = some (.cased 0x67) := by decide
/-- 2.4: the nibbles are not swapped. -/
theorem test_expandL_A9 : output (bench (.expander 0x0A9)) = some (.pair 0x61 0x39) := by decide
/-- P1 step 2. -/
theorem test_expandU_6C : output (bench (.expander 0x16C)) = some (.pair 0x36 0x43) := by decide
/-- 2.5: `4` `A`. -/
theorem test_compactS_4A : output (bench (.compactor 0x03441)) = some (.compacted (.ok 0x4A)) := by decide
/-- 2.5: `g` `z`, both invalid (rests on D8). -/
theorem test_compactS_gz :
    output (bench (.compactor 0x0677A)) = some (.compacted (.error (.invalidByte 0x67))) := by decide
/-- 2.5: `z` `4`, first invalid (rests on D3). -/
theorem test_compactT_z4 : output (bench (.compactor 0x17A34)) = some (.compacted (.ok 0xF4)) := by decide
/-- 2.5: `4` `z`, OR and not addition (rests on D3). -/
theorem test_compactT_4z : output (bench (.compactor 0x1347A)) = some (.compacted (.ok 0xFF)) := by decide
/-- 2.6: `48656c6c6f`. -/
theorem test_encodeL_hello :
    output (bench (.encode 0 [0x48, 0x65, 0x6C, 0x6C, 0x6F])) =
      some (.encoded (symbolsOf ['4', '8', '6', '5', '6', 'c', '6', 'c', '6', 'f'])) := by decide
/-- S7. -/
theorem test_encodeU_hello :
    output (bench (.encode 1 [0x48, 0x65, 0x6C, 0x6C, 0x6F])) =
      some (.encoded [0x34, 0x38, 0x36, 0x35, 0x36, 0x43, 0x36, 0x43, 0x36, 0x46]) := by decide
/-- S8. -/
theorem test_decodeS_hello_world :
    output (bench (.decode 0 [0x34, 0x38, 0x36, 0x35, 0x36, 0x43, 0x36, 0x43, 0x36, 0x46, 0x32, 0x43, 0x32, 0x30,
      0x35, 0x37, 0x36, 0x46, 0x37, 0x32, 0x36, 0x43, 0x36, 0x34, 0x32, 0x31])) =
      some (.decoded (.ok [0x48, 0x65, 0x6C, 0x6C, 0x6F, 0x2C, 0x20, 0x57, 0x6F, 0x72, 0x6C, 0x64, 0x21])) := by
  decide
/-- P4: the abort in the middle; the byte before it is discarded. -/
theorem test_decodeS_48zz6C :
    output (bench (.decode 0 [0x34, 0x38, 0x7A, 0x7A, 0x36, 0x43])) =
      some (.decoded (.error (.invalidByte 0x7A))) := by decide
/-- P5 part a (the middle byte rests on D3). -/
theorem test_decodeT_48zz6C :
    output (bench (.decode 1 [0x34, 0x38, 0x7A, 0x7A, 0x36, 0x43])) =
      some (.decoded (.ok [0x48, 0xFF, 0x6C])) := by decide
/-- 2.7: "zzz"; odd length beats invalid symbols. -/
theorem test_decodeT_zzz :
    output (bench (.decode 1 [0x7A, 0x7A, 0x7A])) = some (.decoded (.error .oddLength)) := by decide

/-! ### Operand forms and renderings -/

/-- R83. -/
theorem test_symbolsOf_4a : symbolsOf ['4', 'a'] = [0x34, 0x61] := by decide
/-- 2.5: InvalidByte(0x7A). -/
theorem test_compactWord_invalid : compactWord (.error (.invalidByte 0x7A)) = 0x27A00#18 := by decide
/-- 2.4: `6C`. -/
theorem test_expandWord_6C : expandWord 0x36 0x43 = 0x3643#16 := by decide
/-- S4: `err` = 1, `err_sym` = 0x00, no `y`. -/
theorem test_decodeOutputs_odd : decodeOutputs (.error .oddLength) = (1#2, 0#8, none) := by decide
/-- R72: a successful empty `y` is not a missing one. -/
theorem test_decodeOutputs_empty : decodeOutputs (.ok []) = (0#2, 0#8, some []) := by decide

/-! ### The host's table words (log entry 5: the model's convention) -/

theorem test_tableWord_compactT : decodeTableWord 24 0x17A34 = some (.compactT 0x7A 0x34) := by decide
theorem test_tableWord_unfit : decodeTableWord 24 0x20000 = none := by decide
theorem test_placed_word_runs : output (State.reset.withFetchWord 16 0x166) = some (.cased 0x46) := by decide

/-! ### Witnesses: what each statement assumes is met somewhere -/

/-- DecRomHoldsTheTwentyTwoEntries, last clause: `/` and `:`, the neighbours of the digits. -/
theorem witness_invalid_symbols : isHexDigit 0x2F = false ∧ isHexDigit 0x3A = false := by decide

/-- LookupsAreInverseOnNibbles: a letter and its other case, and a digit with itself. -/
theorem witness_caseVariant : CaseVariant 0x61 0x41 ∧ CaseVariant 0x46 0x66 ∧ CaseVariant 0x39 0x39 := by
  refine ⟨.inr (.inl ?_), .inr (.inr ?_), .inl rfl⟩ <;> decide

/-- CaseFoldClearsBitFiveOfLetters: the ends of the converted range and the codes just outside. -/
theorem witness_lower_range :
    isLowerCode 0x61 = true ∧ isLowerCode 0x66 = true ∧ isLowerCode 0x60 = false ∧ isLowerCode 0x67 = false := by
  decide

/-- ExpandStaysInAlphabetAndIsInjective, the injectivity clause. -/
theorem witness_expand_equal : expand standard 0x6C true = expand standard 0x6C true := rfl

/-- EncodeExpandsEveryByteInOrder: an index inside the input. -/
theorem witness_encode_index : ([0x48, 0x65] : ByteSequence)[1]? = some 0x65 := by decide

/-- EncodeOutputIsValidAndInjective: a byte of an output, and two equal outputs. -/
theorem witness_encode_output :
    (0x38 : Byte) ∈ encodeSeq standard false [0x48] ∧
      encodeSeq standard false [0x48] = encodeSeq standard false [0x48] := by decide

/-- TolerantOutputIsNotReversible: a pair for each clause. -/
theorem witness_tolerant_pairs :
    isHexDigit 0x7A = false ∧ (isHexDigit 0x67 = false ∧ isHexDigit 0x31 = true) := by decide

/-- DecodeOfOddLengthFails: one symbol. -/
theorem witness_odd : ([0x61] : ByteSequence).length % 2 = 1 := by decide

/-- DecodeStrictDecodesHexDigits: `4a`, even and valid, with its only pair. -/
theorem witness_strict :
    ([0x34, 0x61] : ByteSequence).length % 2 = 0 ∧ (∀ c ∈ ([0x34, 0x61] : ByteSequence), isHexDigit c = true) ∧
      ([0x34, 0x61] : ByteSequence)[2 * 0]? = some 0x34 ∧ ([0x34, 0x61] : ByteSequence)[2 * 0 + 1]? = some 0x61 := by
  decide

/-- DecodeTolerantDecodesEveryEvenLength: `zz`, even and invalid, with its only pair. -/
theorem witness_tolerant :
    ([0x7A, 0x7A] : ByteSequence).length % 2 = 0 ∧
      ([0x7A, 0x7A] : ByteSequence)[2 * 0]? = some 0x7A ∧ ([0x7A, 0x7A] : ByteSequence)[2 * 0 + 1]? = some 0x7A := by
  decide

/-- DecodeSuccessHalvesTheLength: a success in each mode. -/
theorem witness_successes (s : State) :
    exec (.decodeS [0x34, 0x61]) s = .next (s.collect (.decoded (.ok [0x4A]))) ∧
      exec (.decodeT [0x34, 0x61]) s = .next (s.collect (.decoded (.ok [0x4A]))) := ⟨rfl, rfl⟩

/-- EveryRequestHasADefinedResult, last clause: a failing request. -/
theorem witness_failing_request :
    (response standard (decodeRequest (.compactor 0x07A7A))).error? ≠ none := by decide

/-- DecodeStrictReportsTheLeastInvalid: both sides hold of `4g0z` and `g` (2.7). -/
theorem witness_least_invalid :
    decodeSeq standard false [0x34, 0x67, 0x30, 0x7A] = .error (.invalidByte 0x67) ∧
      ([0x34, 0x67, 0x30, 0x7A] : ByteSequence).length % 2 = 0 := by decide

/-- DecodeModesAgreeWhereStrictSucceeds: an input for each clause. -/
theorem witness_modes :
    decodeSeq standard false [0x34, 0x61] = .ok [0x4A] ∧ decodeSeq standard false [0x34] = .error .oddLength ∧
      decodeSeq standard false [0x7A, 0x30] = .error (.invalidByte 0x7A) := by decide

/-- DecodeIsCaseInsensitive: `4a` and `4A` (S3). -/
theorem witness_case_variants : List.Forall₂ CaseVariant [0x34, 0x61] [0x34, 0x41] :=
  .cons (.inl rfl) (.cons (.inr (.inl (by decide))) .nil)

/-- DecodeOfAppendDecodesChunks: two even chunks; an even and an odd one. -/
theorem witness_chunks :
    (([0x34, 0x61] : ByteSequence).length % 2 = 0 ∧ ([0x7A, 0x7A] : ByteSequence).length % 2 = 0) ∧
      ([0x34, 0x61] : ByteSequence).length % 2 ≠ ([0x30] : ByteSequence).length % 2 := by decide

/-- EncodeOfDecodeOnlyInOneCase: both sides hold of `4a` with lowercase output and of `4A` with uppercase output, and the
right side fails of `4A` with lowercase output (R144). -/
theorem witness_one_case :
    (([0x34, 0x61] : ByteSequence).length % 2 = 0 ∧ (∀ c ∈ ([0x34, 0x61] : ByteSequence), isHexDigit c = true) ∧
        lettersInCase false [0x34, 0x61] ∧
        decodeSeq standard false [0x34, 0x61] = .ok [0x4A] ∧ encodeSeq standard false [0x4A] = [0x34, 0x61]) ∧
      (lettersInCase true [0x34, 0x41] ∧ encodeSeq standard true [0x4A] = [0x34, 0x41]) ∧
      ¬ lettersInCase false [0x34, 0x41] := by
  unfold lettersInCase
  decide

/-- ErrorsComeOnlyFromTheDecoder: an operation that delivers each error. -/
theorem witness_errors :
    (response standard (.decodeT [0x61])).error? = some .oddLength ∧
      (response standard (.compactS 0x7A 0x34)).error? = some (.invalidByte 0x7A) ∧
      (response standard (.decodeS [0x34, 0x67])).error? = some (.invalidByte 0x67) := by decide

/-- ErrorCodesAndPadding: results under the conditions of its clauses. -/
theorem witness_error_codes :
    errCode (.error .oddLength : Except DecodeError Byte) ≠ 2#2 ∧
      errCode (.error .oddLength : Except DecodeError Byte) ≠ 0#2 := by decide

/-- OutputsDependOnlyOnTheReads: a machine whose DEC_ROM is another one agrees with the spec's on what ENCODE reads. -/
theorem witness_reads :
    let other : Config := { standard with decRom := fun _ => 0 }
    (other.tol = standard.tol ∧ other.fold = standard.fold ∧ other.c1First = standard.c1First ∧
      ∀ a ∈ romReads standard (.encodeL [0x48]), memRead other a = memRead standard a) ∧
      other.decRom 0x39 ≠ standard.decRom 0x39 := by
  refine ⟨⟨rfl, rfl, rfl, ?_⟩, by decide⟩
  decide

/-- RomReadCounts: an odd and an even input, a strict success, and a read location. -/
theorem witness_read_counts :
    ([0x34] : ByteSequence).length % 2 = 1 ∧ ([0x34, 0x61] : ByteSequence).length % 2 = 0 ∧
      decodeSeq standard false [0x34, 0x61] = .ok [0x4A] ∧
      Addr.dec 0x34 ∈ romReads standard (.decodeS [0x34, 0x61]) := by decide

/-- OutputsIgnoreTheHistory: two states with the same requests and different histories. -/
theorem witness_history :
    (bench (.encRom 0x7)).requests =
        ({ requests := [.encRom 0x7], responses := [.symbol 0x30] } : State).requests ∧
      bench (.encRom 0x7) ≠ { requests := [.encRom 0x7], responses := [.symbol 0x30] } := by decide

/-- ReorderedProgramsGiveTheSameOutputs: a program, its reversal, and their runs. -/
theorem witness_reordered :
    ([.encRom 0x7, .decRom 0x37] : List Request).Perm [.decRom 0x37, .encRom 0x7] ∧
      Sys2Proof.core.run 2 (State.reset.withRequests [.encRom 0x7, .decRom 0x37]) =
        .next ({ requests := [], responses := [.symbol 0x37, .value 0x07] } : State) ∧
      Sys2Proof.core.run 2 (State.reset.withRequests [.decRom 0x37, .encRom 0x7]) =
        .next ({ requests := [], responses := [.value 0x07, .symbol 0x37] } : State) :=
  ⟨.swap .., rfl, rfl⟩

/-- SafeForEveryAdmissibleMachine: the spec's own machine is admissible. -/
theorem witness_standard_admissible : standard.Admissible where
  encRom_eq := rfl
  decRom_eq := rfl
  tol_valid := combine_nibbles
  fold_emitted _ := rfl

/-- SafeForEveryAdmissibleMachine: so is one that merges otherwise on invalid pairs, folds all of `a` to `z` and examines the
second symbol first. -/
theorem witness_other_admissible :
    Config.Admissible { standard with
      tol := fun h l => if h = INVALID ∨ l = INVALID then 0x00 else combine h l
      fold := fun s => if 0x61#8 ≤ s ∧ s ≤ 0x7A#8 then s - 32#8 else s
      c1First := false } where
  encRom_eq := rfl
  decRom_eq := rfl
  tol_valid := by decide
  fold_emitted := by decide

/-- SafeForEveryAdmissibleMachine: an input for each clause: an even one with a valid pair, an odd one, an even one with an
invalid symbol. -/
theorem witness_admissible_inputs :
    (([0x34, 0x61] : ByteSequence).length % 2 = 0 ∧ ([0x34, 0x61] : ByteSequence)[2 * 0]? = some 0x34 ∧
        ([0x34, 0x61] : ByteSequence)[2 * 0 + 1]? = some 0x61 ∧ isHexDigit 0x34 = true ∧ isHexDigit 0x61 = true) ∧
      ([0x34] : ByteSequence).length % 2 = 1 ∧
      (([0x7A, 0x30] : ByteSequence).length % 2 = 0 ∧ ∃ c ∈ ([0x7A, 0x30] : ByteSequence), isHexDigit c = false) := by
  decide

/-- StrictFailureIsOfTheFirstInvalidPair: `48gz`, whose second pair has two different invalid symbols; the machine that
examines the second symbol first is admissible too (witness_other_admissible) and reports the other one. -/
theorem witness_first_invalid_pair :
    (([0x34, 0x38, 0x67, 0x7A] : ByteSequence).length % 2 = 0 ∧
        ∃ c ∈ ([0x34, 0x38, 0x67, 0x7A] : ByteSequence), isHexDigit c = false) ∧
      decodeSeq standard false [0x34, 0x38, 0x67, 0x7A] = .error (.invalidByte 0x67) ∧
      decodeSeq { standard with c1First := false } false [0x34, 0x38, 0x67, 0x7A] = .error (.invalidByte 0x7A) := by
  decide

/-- PlacedTableWordRunsNext: a word the convention places at CASECONV. -/
theorem witness_placed : decodeTableWord 16 0x166 = some (.caseFold 0x66) := by decide

/-- StepKeepsResponsesLegal: a state with a response that meets the invariant and takes a step. -/
theorem witness_inv :
    State.Inv { requests := [.decRom 0x7A], responses := [.symbol 0x37] } ∧
      step { requests := [.decRom 0x7A], responses := [.symbol 0x37] } =
        .next { requests := [], responses := [.symbol 0x37, .value 0xFF] } := by
  refine ⟨fun r hr => ?_, rfl⟩
  obtain rfl : r = .symbol 0x37 := by simpa using hr
  show (0x37 : Symbol) ∈ lowerAlphabet
  decide

/-- DecodeIsARunOfCompacts: an even input. -/
theorem witness_compacts : ([0x34, 0x38, 0x7A, 0x7A] : ByteSequence).length % 2 = 0 := by decide

end Sys2Proof.Tests
end

section
/-! SUPPORT. The contents of the ROMs (10_state.md). -/

namespace Sys2Proof.Machine

/-- R24, addresses 0x30 to 0x39. -/
theorem decRom_digit : ∀ k < 10, decRom (BitVec.ofNat 8 (0x30 + k)) = BitVec.ofNat 8 k := by decide

/-- R24, addresses 0x61 to 0x66. -/
theorem decRom_lowerLetter : ∀ k < 6, decRom (BitVec.ofNat 8 (0x61 + k)) = BitVec.ofNat 8 (10 + k) := by
  decide

/-- R24, addresses 0x41 to 0x46. -/
theorem decRom_upperLetter : ∀ k < 6, decRom (BitVec.ofNat 8 (0x41 + k)) = BitVec.ofNat 8 (10 + k) := by
  decide

/-- Settles O3: the three ranges entry by entry, and the sentinel as what DEC_ROM holds off the hex digits. -/
theorem decRomHoldsTheTwentyTwoEntries : Obligations.DecRomHoldsTheTwentyTwoEntries :=
  ⟨decRom_digit, decRom_lowerLetter, decRom_upperLetter, fun c hc => (decRom_eq_invalid_iff c).mpr hc⟩

end Sys2Proof.Machine
end

section
/-! SUPPORT. Requests and their results (30_encoding.md sections 7 and 8). -/

namespace Sys2Proof.Machine

/-! ### Every request has a result (R76) -/

/-- An operation's result is its response, the same in every state, and its frame is the whole rest of the state. -/
theorem exec_eq_next_collect (i : Instr) (s : State) : exec i s = .next (s.collect (response standard i)) := by
  rw [exec_eq_deliver, deliver_eq]

/-- Only COMPACTOR and DECODE deliver failures: every other block's operations, in either mode, answer with outputs alone. -/
theorem block_of_response_error (r : Request) (h : (response standard (decodeRequest r)).error? ≠ none) :
    r.block = .compactor ∨ r.block = .decode := by
  cases r with
  | encRom w => exact absurd rfl h
  | decRom w => exact absurd rfl h
  | caseConv w =>
    simp only [decodeRequest] at h
    split at h <;> exact absurd rfl h
  | expander w =>
    simp only [decodeRequest] at h
    split at h <;> exact absurd rfl h
  | compactor w => exact .inl rfl
  | encode m x =>
    simp only [decodeRequest] at h
    split at h <;> exact absurd rfl h
  | decode m x => exact .inr rfl

/-- Settles O36: the result is the decoded operation's response. -/
theorem everyRequestHasADefinedResult : Obligations.EveryRequestHasADefinedResult := fun r =>
  ⟨response standard (decodeRequest r), exec_eq_next_collect (decodeRequest r), block_of_response_error r⟩

/-! ### The call syntax (R80 to R82) -/

/-- An omitted `uppercase` is false (R82). -/
theorem callEncode_omitted (x : ByteSequence) : callEncode x none = callEncode x (some 0#1) := rfl

/-- An omitted `ignore_invalid` is true (R82). -/
theorem callDecode_omitted (x : ByteSequence) : callDecode x none = callDecode x (some 1#1) := rfl

theorem decodeRequest_callEncode_lower (x : ByteSequence) :
    decodeRequest (callEncode x (some 0#1)) = .encodeL x := rfl

theorem decodeRequest_callEncode_upper (x : ByteSequence) :
    decodeRequest (callEncode x (some 1#1)) = .encodeU x := rfl

theorem decodeRequest_callDecode_strict (x : ByteSequence) :
    decodeRequest (callDecode x (some 0#1)) = .decodeS x := rfl

theorem decodeRequest_callDecode_tolerant (x : ByteSequence) :
    decodeRequest (callDecode x (some 1#1)) = .decodeT x := rfl

/-- Settles O39: each omitted mode is rewritten to its default, and the explicit modes are read off the mode bit. -/
theorem omittedModeTakesTheDefault : Obligations.OmittedModeTakesTheDefault := by
  intro x
  rw [callEncode_omitted, callDecode_omitted]
  exact ⟨decodeRequest_callEncode_lower x, decodeRequest_callEncode_lower x, decodeRequest_callEncode_upper x,
    decodeRequest_callDecode_tolerant x, decodeRequest_callDecode_tolerant x, decodeRequest_callDecode_strict x,
    fun _ => rfl, fun _ => rfl⟩

end Sys2Proof.Machine
end

section
/-! SUPPORT. The ROM lookups (40_rom_lookups.md). -/

namespace Sys2Proof.Machine

/-! ### ENC.LOOKUP (R90) -/

/-- Settles O5: the operation's response is the entry read, and it is all that is collected. -/
theorem encLookupAnswersTheRomEntry : Obligations.EncLookupAnswersTheRomEntry := fun n s =>
  exec_eq_next_collect (.encLookup n) s

/-! ### DEC.LOOKUP (R92) -/

/-- A run of DEC_ROM's entries given by offset from `base` gives the entry at every address within the run. -/
theorem decRom_of_mem_run {c : Symbol} {base n : Nat} {entry : Nat → Byte}
    (hrun : ∀ k < n, decRom (BitVec.ofNat 8 (base + k)) = entry k)
    (hlo : base ≤ c.toNat) (hhi : c.toNat < base + n) : decRom c = entry (c.toNat - base) := by
  have hc := hrun (c.toNat - base) (by omega)
  rwa [Nat.add_sub_cancel' hlo, BitVec.ofNat_toNat, BitVec.setWidth_eq] at hc

/-- What each of R61's three ranges is, as bounds on the code. -/
theorem between_iff (lo hi c : Symbol) :
    (decide (lo ≤ c) && decide (c ≤ hi)) = true ↔ lo.toNat ≤ c.toNat ∧ c.toNat < hi.toNat + 1 := by
  rw [Bool.and_eq_true, decide_eq_true_iff, decide_eq_true_iff, BitVec.le_def, BitVec.le_def, Nat.lt_succ_iff]

/-- DEC_ROM holds a hex digit's value (R62), range by range of R61. -/
theorem decRom_eq_digitValue {c : Symbol} (h : isHexDigit c = true) :
    decRom c = BitVec.ofNat 8 (digitValue c) := by
  unfold digitValue
  split_ifs with hdigit hlower hupper
  · obtain ⟨hlo, hhi⟩ := (between_iff _ _ c).mp hdigit
    exact decRom_of_mem_run decRom_digit hlo hhi
  · obtain ⟨hlo, hhi⟩ := (between_iff _ _ c).mp hlower
    rw [Nat.add_comm]
    exact decRom_of_mem_run decRom_lowerLetter hlo hhi
  · obtain ⟨hlo, hhi⟩ := (between_iff _ _ c).mp hupper
    rw [Nat.add_comm]
    exact decRom_of_mem_run decRom_upperLetter hlo hhi
  · simp [isHexDigit, hdigit, hlower, hupper] at h

/-- The whole of DEC_ROM: the digit's value on a hex digit character, the sentinel 255 elsewhere (R24, R63). -/
theorem decRom_eq_ite (c : Symbol) :
    decRom c = if isHexDigit c then BitVec.ofNat 8 (digitValue c) else 255#8 := by
  split
  next h => exact decRom_eq_digitValue h
  next h => exact (decRom_eq_invalid_iff c).mpr (Bool.eq_false_of_not_eq_true h)

/-- Settles O6: the response is the entry read, and the contents of DEC_ROM say which value that is. -/
theorem decLookupAnswersValueOrSentinel : Obligations.DecLookupAnswersValueOrSentinel := fun c s =>
  ⟨exec_eq_next_collect (.decLookup c) s, decRom_eq_ite c⟩

end Sys2Proof.Machine
end

section
/-! SUPPORT. The encoder path (41_encoder.md). -/

namespace Sys2Proof.Machine

/-! ### ENCODE (R108 to R110) -/

theorem exec_encodeL (x : ByteSequence) (s : State) :
    exec (.encodeL x) s = .next (s.collect (.encoded (encodeSeq standard false x))) :=
  exec_eq_next_collect (.encodeL x) s

theorem exec_encodeU (x : ByteSequence) (s : State) :
    exec (.encodeU x) s = .next (s.collect (.encoded (encodeSeq standard true x))) :=
  exec_eq_next_collect (.encodeU x) s

/-- R109: two symbols for every byte. -/
@[simp] theorem encodeSeq_length (cfg : Config) (u : Bool) (x : ByteSequence) :
    (encodeSeq cfg u x).length = 2 * x.length := by
  induction x with
  | nil => rfl
  | cons b x ih => rw [encodeSeq_cons, List.length_cons, List.length_cons, ih, List.length_cons, Nat.mul_succ]

/-- R108: EXPAND's two symbols of the byte at `i` stand at `2 * i` and `2 * i + 1`, since every byte before it
takes two places. -/
theorem encodeSeq_getElem?_pair (cfg : Config) (u : Bool) {x : ByteSequence} {i : Nat} {b : Byte} (h : x[i]? = some b) :
    (encodeSeq cfg u x)[2 * i]? = some (expand cfg b u).1 ∧
      (encodeSeq cfg u x)[2 * i + 1]? = some (expand cfg b u).2 := by
  induction x generalizing i with
  | nil => cases h
  | cons c x ih =>
    cases i with
    | zero =>
      obtain rfl : c = b := Option.some.inj h
      exact ⟨rfl, rfl⟩
    | succ i =>
      rw [List.getElem?_cons_succ] at h
      simpa only [encodeSeq_cons, Nat.mul_succ, List.getElem?_cons_succ] using ih h

/-- Settles O12: the sequence delivered is `encodeSeq` of the input, whose length and symbols, position by position, are
known in both modes. -/
theorem encodeExpandsEveryByteInOrder : Obligations.EncodeExpandsEveryByteInOrder := fun x s =>
  ⟨⟨_, exec_encodeL x s, encodeSeq_length standard false x, fun _ _ => encodeSeq_getElem?_pair standard false⟩,
    ⟨_, exec_encodeU x s, encodeSeq_length standard true x, fun _ _ => encodeSeq_getElem?_pair standard true⟩⟩

/-- Settles O13: with no byte to expand nothing is appended, in either mode. -/
theorem encodeOfEmptyIsEmpty : Obligations.EncodeOfEmptyIsEmpty := by
  intro s
  rw [exec_encodeL, exec_encodeU, encodeSeq_nil, encodeSeq_nil]
  exact ⟨rfl, rfl⟩

/-! ### EXPAND (R104) -/

/-- The fold's test is that of the six lowercase letters (R100). -/
theorem foldCase_eq_ite (c : Symbol) : foldCase c = if isLowerCode c then c - 32#8 else c := by
  simp only [foldCase, isLowerCode, Bool.and_eq_true, decide_eq_true_eq]

theorem exec_expandL (b : Byte) (s : State) :
    exec (.expandL b) s = .next (s.collect (.pair (encRom (hiNibble b)) (encRom (loNibble b)))) :=
  exec_eq_next_collect (.expandL b) s

theorem exec_expandU (b : Byte) (s : State) :
    exec (.expandU b) s =
      .next (s.collect (.pair (foldCase (encRom (hiNibble b))) (foldCase (encRom (loNibble b))))) :=
  exec_eq_next_collect (.expandU b) s

/-- Settles O10: the two symbols are the ROM entries at the high and the low nibble, and EXPAND.U folds each of them after
its lookup. -/
theorem expandEmitsHighNibbleFirst : Obligations.ExpandEmitsHighNibbleFirst := by
  intro b s
  refine ⟨_, _, rfl, rfl, exec_expandL b s, ?_⟩
  rw [← foldCase_eq_ite, ← foldCase_eq_ite]
  exact exec_expandU b s

end Sys2Proof.Machine
end

section
/-! SUPPORT. The decoder path (42_decoder.md). -/

namespace Sys2Proof.Machine

/-! ### What an operation delivers determines its response -/

@[simp] theorem State.collect_inj (s : State) {r r' : Response} : s.collect r = s.collect r' ↔ r = r' := by
  constructor
  · intro h
    have hr : s.responses ++ [r] = s.responses ++ [r'] := congrArg State.responses h
    exact List.singleton_inj.mp (List.append_cancel_left hr)
  · exact congrArg s.collect

/-- An operation delivers its own response and no other one. -/
theorem exec_eq_next_collect_iff {i : Instr} {s : State} {r : Response} :
    exec i s = .next (s.collect r) ↔ response standard i = r := by
  rw [exec_eq_next_collect, Host.Outcome.next.injEq, State.collect_inj]

theorem exec_compactS_iff {c1 c2 : Symbol} {s : State} {r : Except DecodeError Byte} :
    exec (.compactS c1 c2) s = .next (s.collect (.compacted r)) ↔ compact standard c1 c2 false = r :=
  exec_eq_next_collect_iff.trans (Response.compacted.injEq _ _).to_iff

theorem exec_compactT_iff {c1 c2 : Symbol} {s : State} {r : Except DecodeError Byte} :
    exec (.compactT c1 c2) s = .next (s.collect (.compacted r)) ↔ compact standard c1 c2 true = r :=
  exec_eq_next_collect_iff.trans (Response.compacted.injEq _ _).to_iff

theorem exec_decodeS_iff {x : ByteSequence} {s : State} {r : Except DecodeError ByteSequence} :
    exec (.decodeS x) s = .next (s.collect (.decoded r)) ↔ decodeSeq standard false x = r :=
  exec_eq_next_collect_iff.trans (Response.decoded.injEq _ _).to_iff

theorem exec_decodeT_iff {x : ByteSequence} {s : State} {r : Except DecodeError ByteSequence} :
    exec (.decodeT x) s = .next (s.collect (.decoded r)) ↔ decodeSeq standard true x = r :=
  exec_eq_next_collect_iff.trans (Response.decoded.injEq _ _).to_iff

/-! ### The round trip (R140) -/

/-- No nibble value is the sentinel (R63). -/
theorem zeroExtend_ne_invalid (n : Nibble) : n.zeroExtend 8 ≠ INVALID := by
  revert n
  decide

/-- Where neither symbol is invalid the mode does not matter: the two values are merged (R121). -/
theorem compact_of_valid {cfg : Config} {c1 c2 : Symbol} (g : Bool) (h1 : cfg.decRom c1 ≠ INVALID)
    (h2 : cfg.decRom c2 ≠ INVALID) : compact cfg c1 c2 g = .ok (cfg.tol (cfg.decRom c1) (cfg.decRom c2)) := by
  cases g
  · simp [compact, reportedInvalid_of_valid h1 h2]
  · exact compact_tolerant cfg c1 c2

/-- COMPACT undoes EXPAND: the two emitted symbols decode to the byte's two nibbles, which merge to the byte. -/
theorem compact_expand (b : Byte) (u g : Bool) :
    compact standard (expand standard b u).1 (expand standard b u).2 g = .ok b := by
  have h1 : decRom (expand standard b u).1 = (hiNibble b).zeroExtend 8 := decRom_caseConv_encRom _ u
  have h2 : decRom (expand standard b u).2 = (loNibble b).zeroExtend 8 := decRom_caseConv_encRom _ u
  rw [compact_of_valid g, standard_decRom, standard_tol, h1, h2, combine_nibbles, hiNibble_append_loNibble]
  · rw [standard_decRom, h1]
    exact zeroExtend_ne_invalid _
  · rw [standard_decRom, h2]
    exact zeroExtend_ne_invalid _

/-- The loop undoes ENCODE byte by byte. -/
theorem decodePairs_encodeSeq (u g : Bool) (x : ByteSequence) :
    decodePairs standard g (encodeSeq standard u x) = .ok x := by
  induction x with
  | nil => rfl
  | cons b x ih =>
    rw [encodeSeq_cons, decodePairs_cons_ok _ (compact_expand b u g), ih]
    rfl

/-- DECODE undoes ENCODE, whose output has an even length. -/
theorem decodeSeq_encodeSeq (u g : Bool) (x : ByteSequence) :
    decodeSeq standard g (encodeSeq standard u x) = .ok x := by
  have heven : (encodeSeq standard u x).length % 2 = 0 := by
    rw [encodeSeq_length, Nat.mul_mod_right]
  rw [decodeSeq_of_even standard g heven, decodePairs_encodeSeq]

/-- Settles O28: the encoder forms deliver `encodeSeq` and `expand`, which `decodeSeq` and `compact` undo in either case
and either mode. -/
theorem decodeOfEncodeIsIdentity : Obligations.DecodeOfEncodeIsIdentity := by
  intro s s'
  refine ⟨fun x => ⟨⟨_, exec_encodeL x s, ?_, ?_⟩, ⟨_, exec_encodeU x s, ?_, ?_⟩⟩,
    fun b => ⟨⟨_, _, exec_eq_next_collect (.expandL b) s, ?_, ?_⟩,
      ⟨_, _, exec_eq_next_collect (.expandU b) s, ?_, ?_⟩⟩⟩
  · exact exec_decodeS_iff.mpr (decodeSeq_encodeSeq false false x)
  · exact exec_decodeT_iff.mpr (decodeSeq_encodeSeq false true x)
  · exact exec_decodeS_iff.mpr (decodeSeq_encodeSeq true false x)
  · exact exec_decodeT_iff.mpr (decodeSeq_encodeSeq true true x)
  · exact exec_compactS_iff.mpr (compact_expand b false false)
  · exact exec_compactT_iff.mpr (compact_expand b false true)
  · exact exec_compactS_iff.mpr (compact_expand b true false)
  · exact exec_compactT_iff.mpr (compact_expand b true true)

/-! ### The lengths (R132, R136, R137) -/

/-- What a success of the loop says of the first pair and of the rest. -/
theorem decodePairs_cons_eq_ok {cfg : Config} {g : Bool} {c1 c2 : Symbol} {x y : ByteSequence}
    (h : decodePairs cfg g (c1 :: c2 :: x) = .ok y) :
    ∃ b y', compact cfg c1 c2 g = .ok b ∧ decodePairs cfg g x = .ok y' ∧ y = b :: y' := by
  cases hc : compact cfg c1 c2 g with
  | error e =>
    rw [decodePairs_cons_error x hc] at h
    cases h
  | ok b =>
    rw [decodePairs_cons_ok x hc] at h
    cases hx : decodePairs cfg g x with
    | error e =>
      rw [hx] at h
      cases h
    | ok y' =>
      rw [hx] at h
      cases h
      exact ⟨b, y', rfl, rfl, rfl⟩

/-- One byte for every pair, on any machine. -/
theorem decodePairs_ok_length (cfg : Config) (g : Bool) :
    ∀ x : ByteSequence, x.length % 2 = 0 → ∀ y, decodePairs cfg g x = .ok y → 2 * y.length = x.length := by
  refine even_induction ?nil ?pair
  case nil =>
    rintro y ⟨⟩
    rfl
  case pair =>
    intro c1 c2 x _ ih y h
    obtain ⟨b, y', -, hx, rfl⟩ := decodePairs_cons_eq_ok h
    rw [List.length_cons, Nat.mul_succ, ih y' hx, List.length_cons, List.length_cons]

/-- R136: a success comes from an even length, and the loop halves it. -/
theorem decodeSeq_ok_length {cfg : Config} {g : Bool} {x y : ByteSequence} (h : decodeSeq cfg g x = .ok y) :
    2 * y.length = x.length := by
  rcases Nat.mod_two_eq_zero_or_one x.length with heven | hodd
  · rw [decodeSeq_of_even cfg g heven] at h
    exact decodePairs_ok_length cfg g x heven y h
  · rw [decodeSeq_of_odd cfg g hodd] at h
    cases h

/-- Settles O24: in either mode the success delivered is `decodeSeq`'s, whose length law holds on every machine. -/
theorem decodeSuccessHalvesTheLength : Obligations.DecodeSuccessHalvesTheLength := fun _ _ _ =>
  ⟨fun h => decodeSeq_ok_length (exec_decodeS_iff.mp h), fun h => decodeSeq_ok_length (exec_decodeT_iff.mp h)⟩

/-- Settles O21: the length check comes before the loop, and before its reads. -/
theorem decodeOfOddLengthFails : Obligations.DecodeOfOddLengthFails := fun _ _ hodd =>
  ⟨exec_decodeS_iff.mpr (decodeSeq_of_odd standard false hodd),
    exec_decodeT_iff.mpr (decodeSeq_of_odd standard true hodd), if_pos hodd, if_pos hodd⟩

/-- R137: length 0 is even, and the loop has no pair to decode. -/
@[simp] theorem decodeSeq_nil (cfg : Config) (g : Bool) : decodeSeq cfg g [] = .ok [] :=
  (decodeSeq_of_even cfg g rfl).trans (decodePairs_nil cfg g)

/-- Settles O25: both modes deliver what `decodeSeq` makes of the empty sequence. -/
theorem decodeOfEmptyIsEmpty : Obligations.DecodeOfEmptyIsEmpty := fun _ =>
  ⟨exec_decodeS_iff.mpr (decodeSeq_nil standard false), exec_decodeT_iff.mpr (decodeSeq_nil standard true)⟩

end Sys2Proof.Machine
end

section
/-! SUPPORT. The errors (60_exceptions.md). -/

namespace Sys2Proof.Machine

/-! ### The error a response delivers -/

@[simp] theorem Response.error?_compacted_eq_some {r : Except DecodeError Byte} {e : DecodeError} :
    (Response.compacted r).error? = some e ↔ r = .error e := by
  cases r <;> simp [Response.error?]

@[simp] theorem Response.error?_decoded_eq_some {r : Except DecodeError ByteSequence} {e : DecodeError} :
    (Response.decoded r).error? = some e ↔ r = .error e := by
  cases r <;> simp [Response.error?]

/-! ### Where the decoder path fails (R151, R152) -/

/-- A failure of strict COMPACT carries an invalid symbol, one of its two. -/
theorem compact_strict_eq_error {c1 c2 : Symbol} {e : DecodeError} (h : compact standard c1 c2 false = .error e) :
    ∃ c, e = .invalidByte c ∧ isHexDigit c = false ∧ (c = c1 ∨ c = c2) := by
  obtain ⟨h1, hc⟩ | ⟨-, h2, hc⟩ | ⟨-, -, hc⟩ := compact_strict_cases c1 c2
  · cases hc.symm.trans h
    exact ⟨c1, rfl, h1, .inl rfl⟩
  · cases hc.symm.trans h
    exact ⟨c2, rfl, h2, .inr rfl⟩
  · cases hc.symm.trans h

theorem compact_strict_of_invalid {c1 c2 : Symbol} (h : isHexDigit c1 = false ∨ isHexDigit c2 = false) :
    ∃ c, compact standard c1 c2 false = .error (.invalidByte c) := by
  obtain ⟨-, hc⟩ | ⟨-, -, hc⟩ | ⟨h1, h2, -⟩ := compact_strict_cases c1 c2
  · exact ⟨c1, hc⟩
  · exact ⟨c2, hc⟩
  · simp [h1, h2] at h

/-- A failure of the loop is the failure of one of its pairs. -/
theorem decodePairs_cons_eq_error {cfg : Config} {g : Bool} {c1 c2 : Symbol} {x : ByteSequence} {e : DecodeError}
    (h : decodePairs cfg g (c1 :: c2 :: x) = .error e) :
    compact cfg c1 c2 g = .error e ∨ decodePairs cfg g x = .error e := by
  cases hc : compact cfg c1 c2 g with
  | error e' =>
    rw [decodePairs_cons_error x hc] at h
    cases h
    exact .inl rfl
  | ok b =>
    rw [decodePairs_cons_ok x hc] at h
    cases hx : decodePairs cfg g x with
    | error e' =>
      rw [hx] at h
      cases h
      exact .inr rfl
    | ok y =>
      rw [hx] at h
      cases h

/-- The tolerant loop never fails, on any machine, because tolerant COMPACT never does. -/
theorem decodePairs_tolerant_ne_error (cfg : Config) (e : DecodeError) :
    ∀ x : ByteSequence, x.length % 2 = 0 → decodePairs cfg true x ≠ .error e := by
  refine even_induction ?nil ?pair
  case nil => exact nofun
  case pair =>
    intro c1 c2 x _ ih h
    obtain hc | hx := decodePairs_cons_eq_error h
    · rw [compact_tolerant] at hc
      cases hc
    · exact ih hx

/-- What a failure of the strict loop carries is an invalid symbol of the input. -/
theorem decodePairs_strict_eq_error {e : DecodeError} :
    ∀ x : ByteSequence, x.length % 2 = 0 → decodePairs standard false x = .error e →
      ∃ c ∈ x, e = .invalidByte c ∧ isHexDigit c = false := by
  refine even_induction ?nil ?pair
  case nil => exact nofun
  case pair =>
    intro c1 c2 x _ ih h
    obtain hc | hx := decodePairs_cons_eq_error h
    · obtain ⟨c, he, hinv, hmem⟩ := compact_strict_eq_error hc
      exact ⟨c, by simp [← or_assoc, hmem], he, hinv⟩
    · obtain ⟨c, hmem, hc⟩ := ih hx
      exact ⟨c, .tail _ (.tail _ hmem), hc⟩

/-- A success of strict COMPACT is a success on two hex digits. -/
theorem isHexDigit_of_compact_strict_eq_ok {c1 c2 : Symbol} {b : Byte} (h : compact standard c1 c2 false = .ok b) :
    isHexDigit c1 = true ∧ isHexDigit c2 = true := by
  obtain ⟨-, hc⟩ | ⟨-, -, hc⟩ | ⟨h1, h2, -⟩ := compact_strict_cases c1 c2
  · cases hc.symm.trans h
  · cases hc.symm.trans h
  · exact ⟨h1, h2⟩

/-- A success of the strict loop is a success on hex digits alone. -/
theorem isHexDigit_of_decodePairs_strict_eq_ok :
    ∀ x : ByteSequence, x.length % 2 = 0 → ∀ y, decodePairs standard false x = .ok y →
      ∀ c ∈ x, isHexDigit c = true := by
  refine even_induction ?nil ?pair
  case nil => exact fun _ _ => nofun
  case pair =>
    intro c1 c2 x _ ih y h
    obtain ⟨b, y', hb, hx, -⟩ := decodePairs_cons_eq_ok h
    obtain ⟨h1, h2⟩ := isHexDigit_of_compact_strict_eq_ok hb
    simp only [List.forall_mem_cons]
    exact ⟨h1, h2, ih y' hx⟩

theorem decodeSeq_strict_of_invalid {x : ByteSequence} {c : Symbol} (heven : x.length % 2 = 0) (hmem : c ∈ x)
    (hinv : isHexDigit c = false) : ∃ c', decodeSeq standard false x = .error (.invalidByte c') := by
  rw [decodeSeq_of_even standard false heven]
  cases h : decodePairs standard false x with
  | ok y => simp [isHexDigit_of_decodePairs_strict_eq_ok x heven y h c hmem] at hinv
  | error e =>
    obtain ⟨c', -, rfl, -⟩ := decodePairs_strict_eq_error x heven h
    exact ⟨c', rfl⟩

/-! ### Which operation fails -/

/-- Everything a failure can be: its error, the operation it comes from, and the cause. -/
theorem response_error_cases {i : Instr} {e : DecodeError} (h : (response standard i).error? = some e) :
    (e = .oddLength ∧ ∃ x, x.length % 2 = 1 ∧ (i = .decodeS x ∨ i = .decodeT x)) ∨
      (∃ c, e = .invalidByte c ∧ isHexDigit c = false ∧
        ((∃ c1 c2, i = .compactS c1 c2 ∧ (c = c1 ∨ c = c2)) ∨
          ∃ x, i = .decodeS x ∧ x.length % 2 = 0 ∧ c ∈ x)) := by
  cases i with
  | encLookup | decLookup | casePass | caseFold | expandL | expandU | compactT | encodeL | encodeU => cases h
  | compactS c1 c2 =>
    obtain ⟨c, he, hinv, hc⟩ := compact_strict_eq_error (Response.error?_compacted_eq_some.mp h)
    exact .inr ⟨c, he, hinv, .inl ⟨c1, c2, rfl, hc⟩⟩
  | decodeS x =>
    replace h := Response.error?_decoded_eq_some.mp h
    obtain heven | hodd := Nat.mod_two_eq_zero_or_one x.length
    · rw [decodeSeq_of_even standard false heven] at h
      obtain ⟨c, hmem, he, hinv⟩ := decodePairs_strict_eq_error x heven h
      exact .inr ⟨c, he, hinv, .inr ⟨x, rfl, heven, hmem⟩⟩
    · rw [decodeSeq_of_odd standard false hodd] at h
      cases h
      exact .inl ⟨rfl, x, hodd, .inl rfl⟩
  | decodeT x =>
    replace h := Response.error?_decoded_eq_some.mp h
    obtain heven | hodd := Nat.mod_two_eq_zero_or_one x.length
    · rw [decodeSeq_of_even standard true heven] at h
      exact absurd h (decodePairs_tolerant_ne_error standard e x heven)
    · rw [decodeSeq_of_odd standard true hodd] at h
      cases h
      exact .inl ⟨rfl, x, hodd, .inr rfl⟩

/-- R151: OddLength comes from DECODE, in either mode, and from the length alone. -/
theorem response_oddLength_iff (i : Instr) :
    (response standard i).error? = some .oddLength ↔
      ∃ x, x.length % 2 = 1 ∧ (i = .decodeS x ∨ i = .decodeT x) := by
  constructor
  · intro h
    obtain ⟨-, hodd⟩ | ⟨c, he, -⟩ := response_error_cases h
    · exact hodd
    · cases he
  · rintro ⟨x, hodd, rfl | rfl⟩
    · exact Response.error?_decoded_eq_some.mpr (decodeSeq_of_odd standard false hodd)
    · exact Response.error?_decoded_eq_some.mpr (decodeSeq_of_odd standard true hodd)

/-- R152: the cause of an InvalidByte is the symbol it carries, one of the operation's own. -/
theorem response_invalidByte_cases {i : Instr} {c : Symbol}
    (h : (response standard i).error? = some (.invalidByte c)) :
    isHexDigit c = false ∧
      ((∃ c1 c2, i = .compactS c1 c2 ∧ (c = c1 ∨ c = c2)) ∨ ∃ x, i = .decodeS x ∧ x.length % 2 = 0 ∧ c ∈ x) := by
  obtain ⟨he, -⟩ | ⟨c', he, hc⟩ := response_error_cases h
  · cases he
  · cases he
    exact hc

theorem response_invalidByte_iff (i : Instr) :
    (∃ c, (response standard i).error? = some (.invalidByte c)) ↔
      (∃ c1 c2, i = .compactS c1 c2 ∧ (isHexDigit c1 = false ∨ isHexDigit c2 = false)) ∨
      ∃ x, i = .decodeS x ∧ x.length % 2 = 0 ∧ ∃ c ∈ x, isHexDigit c = false := by
  constructor
  · rintro ⟨c, h⟩
    obtain ⟨hinv, ⟨c1, c2, hi, rfl | rfl⟩ | ⟨x, hi, heven, hmem⟩⟩ := response_invalidByte_cases h
    · exact .inl ⟨c, c2, hi, .inl hinv⟩
    · exact .inl ⟨c1, c, hi, .inr hinv⟩
    · exact .inr ⟨x, hi, heven, c, hmem, hinv⟩
  · rintro (⟨c1, c2, rfl, hinv⟩ | ⟨x, rfl, heven, c, hmem, hinv⟩)
    · exact (compact_strict_of_invalid hinv).imp fun _ => Response.error?_compacted_eq_some.mpr
    · exact (decodeSeq_strict_of_invalid heven hmem hinv).imp fun _ => Response.error?_decoded_eq_some.mpr

/-- Settles O32: each error's cause is read off the response the operation delivers. -/
theorem errorsComeOnlyFromTheDecoder : Obligations.ErrorsComeOnlyFromTheDecoder := by
  intro i s
  refine ⟨response standard i, exec_eq_next_collect i s, response_oddLength_iff i, response_invalidByte_iff i,
    fun c h => ?_⟩
  obtain ⟨hinv, hcompact | ⟨x, hi, -, hmem⟩⟩ := response_invalidByte_cases h
  · exact ⟨hinv, .inl hcompact⟩
  · exact ⟨hinv, .inr ⟨x, hi, hmem⟩⟩

end Sys2Proof.Machine
end

section
/-! SUPPORT. The encodings of requests (30_encoding.md sections 4 to 7): mode bits, the round trip, raw words. -/

namespace Sys2Proof.Machine

/-! ### Words with a mode bit (R67 to R71) -/

/-- The bit above the operand is the mode bit. -/
theorem getLsbD_ofBool_append {n : Nat} (u : Bool) (v : BitVec n) : (BitVec.ofBool u ++ v).getLsbD n = u := by
  rw [BitVec.getLsbD_append, if_neg (Nat.lt_irrefl n), Nat.sub_self, BitVec.getLsbD_ofBool]
  exact Bool.true_and u

/-- Every word one bit wider than its operand is a mode bit and the operand. -/
theorem eq_ofBool_append {n : Nat} (w : BitVec (1 + n)) : ∃ u v, w = BitVec.ofBool u ++ (v : BitVec n) := by
  obtain h | h := BitVec.eq_zero_or_eq_one (w.extractLsb' n 1)
  · exact ⟨false, _, BitVec.extractLsb'_append_extractLsb'.symm.trans (congrArg (· ++ w.extractLsb' 0 n) h)⟩
  · exact ⟨true, _, BitVec.extractLsb'_append_extractLsb'.symm.trans (congrArg (· ++ w.extractLsb' 0 n) h)⟩

theorem decodeRequest_caseConv (u : Bool) (s : Symbol) :
    decodeRequest (.caseConv (BitVec.ofBool u ++ s)) = if u then .caseFold s else .casePass s := by
  simp only [decodeRequest, getLsbD_ofBool_append u s, BitVec.extractLsb'_append_eq_right]

theorem decodeRequest_expander (u : Bool) (b : Byte) :
    decodeRequest (.expander (BitVec.ofBool u ++ b)) = if u then .expandU b else .expandL b := by
  simp only [decodeRequest, getLsbD_ofBool_append u b, BitVec.extractLsb'_append_eq_right]

/-- COMPACTOR's mode bit stands above both symbols, and `c1` above `c2` (R71). -/
theorem decodeRequest_compactor (g : Bool) (c1 c2 : Symbol) :
    decodeRequest (.compactor (BitVec.ofBool g ++ c1 ++ c2)) = if g then .compactT c1 c2 else .compactS c1 c2 := by
  have hmode : (BitVec.ofBool g ++ c1 ++ c2).getLsbD 16 = g := by
    rw [BitVec.getLsbD_append]
    exact getLsbD_ofBool_append g c1
  have hfirst : (BitVec.ofBool g ++ c1 ++ c2).extractLsb' 8 8 = c1 := by
    rw [BitVec.extractLsb'_append_eq_of_le (Nat.le_refl 8)]
    exact BitVec.extractLsb'_append_eq_right
  simp only [decodeRequest, hmode, hfirst, BitVec.extractLsb'_append_eq_right]

/-! ### The round trip -/

/-- Settles O34: each format gives back the mode bit and the operands written into it. -/
theorem decodeOfEncodedInstrIsIdentity : Obligations.DecodeOfEncodedInstrIsIdentity := by
  intro i
  cases i with
  | encLookup | decLookup | encodeL | encodeU | decodeS | decodeT => rfl
  | casePass s => exact decodeRequest_caseConv false s
  | caseFold s => exact decodeRequest_caseConv true s
  | expandL b => exact decodeRequest_expander false b
  | expandU b => exact decodeRequest_expander true b
  | compactS c1 c2 => exact decodeRequest_compactor false c1 c2
  | compactT c1 c2 => exact decodeRequest_compactor true c1 c2

/-- Settles O35: every word is its mode bit and its operands, and the operation decoded keeps each of them. -/
theorem encodeOfDecodedRequestIsIdentity : Obligations.EncodeOfDecodedRequestIsIdentity := by
  intro r
  cases r with
  | encRom | decRom => rfl
  | caseConv w =>
    obtain ⟨u, s, rfl⟩ := eq_ofBool_append (n := 8) w
    rw [decodeRequest_caseConv]
    cases u <;> rfl
  | expander w =>
    obtain ⟨u, b, rfl⟩ := eq_ofBool_append (n := 8) w
    rw [decodeRequest_expander]
    cases u <;> rfl
  | compactor w =>
    obtain ⟨v, c2, rfl⟩ : ∃ (v : BitVec 9) (c2 : Symbol), w = v ++ c2 :=
      ⟨_, _, (BitVec.extractLsb'_append_extractLsb' (w := 9) (len := 8)).symm⟩
    obtain ⟨g, c1, rfl⟩ := eq_ofBool_append (n := 8) v
    rw [decodeRequest_compactor]
    cases g <;> rfl
  | encode m x => obtain rfl | rfl := BitVec.eq_zero_or_eq_one m <;> rfl
  | decode m x => obtain rfl | rfl := BitVec.eq_zero_or_eq_one m <;> rfl

/-- Settles O37: each word is split at its mode bit. -/
theorem wordsOfTheTestVectorsDecode : Obligations.WordsOfTheTestVectorsDecode :=
  ⟨rfl, decodeRequest_caseConv true 0x61, decodeRequest_expander false 0x6C, decodeRequest_compactor true 0x7A 0x34⟩

/-! ### Raw words (R76) -/

theorem ofWord_too_wide {b : Block} {w : Nat} (x : ByteSequence) (h : 2 ^ b.width ≤ w) :
    Request.ofWord b w x = .error (.wordTooWide b) := if_pos h

theorem ofWord_sequence_not_taken {b : Block} {w : Nat} {x : ByteSequence} (hw : w < 2 ^ b.width)
    (hb : b.takesSequence = false) (hx : x ≠ []) : Request.ofWord b w x = .error (.sequenceNotTaken b) := by
  simp [Request.ofWord, hw, hb, hx]

/-- A request's own bits are accepted by its block and give it back. -/
theorem ofWord_block_word_sequence (r : Request) : Request.ofWord r.block r.word r.sequence = .ok r := by
  have hw : ¬ 2 ^ r.block.width ≤ r.word := by
    cases r <;> exact Nat.not_le.mpr (BitVec.isLt _)
  have hx : (!r.block.takesSequence && !r.sequence.isEmpty) = false := by
    cases r <;> rfl
  unfold Request.ofWord
  rw [if_neg hw, hx]
  cases r <;> simp [Request.block, Request.word, Request.sequence]

/-- Bits that fit a block are the bits of one of its requests. -/
theorem exists_request_of_fits {b : Block} {w : Nat} {x : ByteSequence} (hw : w < 2 ^ b.width)
    (hx : b.takesSequence = false → x = []) : ∃ r : Request, r.block = b ∧ r.word = w ∧ r.sequence = x := by
  cases b with
  | encRom => exact ⟨.encRom (.ofNatLT w hw), rfl, rfl, (hx rfl).symm⟩
  | decRom => exact ⟨.decRom (.ofNatLT w hw), rfl, rfl, (hx rfl).symm⟩
  | caseConv => exact ⟨.caseConv (.ofNatLT w hw), rfl, rfl, (hx rfl).symm⟩
  | expander => exact ⟨.expander (.ofNatLT w hw), rfl, rfl, (hx rfl).symm⟩
  | compactor => exact ⟨.compactor (.ofNatLT w hw), rfl, rfl, (hx rfl).symm⟩
  | encode => exact ⟨.encode (.ofNatLT w hw) x, rfl, rfl, rfl⟩
  | decode => exact ⟨.decode (.ofNatLT w hw) x, rfl, rfl, rfl⟩

theorem decodeWord_ok_iff {b : Block} {w : Nat} {x : ByteSequence} :
    (∃ i, decodeWord b w x = .ok i) ↔ w < 2 ^ b.width ∧ (b.takesSequence = false → x = []) := by
  constructor
  · rintro ⟨i, h⟩
    have hw : w < 2 ^ b.width := by
      by_contra hw
      simp [decodeWord, ofWord_too_wide x (Nat.not_lt.mp hw)] at h
    refine ⟨hw, fun hb => ?_⟩
    by_contra hx
    simp [decodeWord, ofWord_sequence_not_taken hw hb hx] at h
  · rintro ⟨hw, hx⟩
    obtain ⟨r, rfl, rfl, rfl⟩ := exists_request_of_fits hw hx
    exact ⟨decodeRequest r, by simp only [decodeWord, ofWord_block_word_sequence]⟩

/-- Settles O38: the bits of requests are the accepted ones, and they are the ones that fit. -/
theorem rawWordsAreAcceptedWhenTheyFit : Obligations.RawWordsAreAcceptedWhenTheyFit :=
  ⟨ofWord_block_word_sequence, fun _ _ _ => decodeWord_ok_iff⟩

/-- Settles O46: the request placed at the head is the one the decoder reads from the word, and presenting it leaves the
list as it was. -/
theorem placedTableWordRunsNext : Obligations.PlacedTableWordRunsNext := by
  intro s nbits w i h
  unfold decodeTableWord at h
  cases hr : tableRequest nbits w with
  | none => simp [hr] at h
  | some r =>
    obtain rfl : decodeRequest r = i := by simpa [hr] using h
    have hplaced : s.withFetchWord nbits w = s.withRequests (r :: s.requests) := by
      simp only [State.withFetchWord, hr]
    rw [hplaced, step_cons (State.withRequests_requests s _)]
    rfl

end Sys2Proof.Machine
end

section
/-! SUPPORT. The two alphabets, and what the ROMs and the encoder path make of them (10_state.md, 41_encoder.md). -/

namespace Sys2Proof.Machine

/-! ### ROM contents and lookups (R21, R25, R26) -/

/-- Settles O2: ENC_ROM's table is the alphabet, and every nibble is an index of it. -/
theorem encRomHoldsTheLowercaseDigits : Obligations.EncRomHoldsTheLowercaseDigits := by
  intro n
  have hlt : n.toNat < lowerAlphabet.length := n.isLt
  rw [memRead_enc, standard_encRom, encRom, encTable_eq_lowerAlphabet, List.getD_eq_getElem _ _ hlt]
  exact List.getElem?_eq_getElem hlt

/-- A nibble's value passes each of R25's tests. -/
theorem zeroExtend_valid (n : Nibble) :
    n.zeroExtend 8 ≠ 255#8 ∧ n.zeroExtend 8 ≤ 15#8 ∧ (n.zeroExtend 8).extractLsb' 4 4 = 0#4 := by
  revert n
  decide

/-- The sentinel fails each of R25's tests. -/
theorem invalid_fails_tests : INVALID = 255#8 ∧ ¬ INVALID ≤ 15#8 ∧ INVALID.extractLsb' 4 4 ≠ 0#4 := by
  decide

theorem decRom_validity_tests (c : Symbol) :
    (isHexDigit c = true ↔ decRom c ≠ 255#8) ∧ (isHexDigit c = true ↔ decRom c ≤ 15#8) ∧
      (isHexDigit c = true ↔ (decRom c).extractLsb' 4 4 = 0#4) ∧ (decRom c ≤ 15#8 ∨ decRom c = 255#8) := by
  obtain ⟨hc, n, hn⟩ | ⟨hc, hn⟩ := decRom_cases c
  · obtain ⟨hne, hle, hbits⟩ := zeroExtend_valid n
    rw [hc, hn]
    exact ⟨iff_of_true rfl hne, iff_of_true rfl hle, iff_of_true rfl hbits, .inl hle⟩
  · obtain ⟨heq, hle, hbits⟩ := invalid_fails_tests
    rw [hc, hn]
    exact ⟨iff_of_false Bool.false_ne_true (not_not_intro heq), iff_of_false Bool.false_ne_true hle,
      iff_of_false Bool.false_ne_true hbits, .inr heq⟩

/-- Settles O4: an entry is a nibble's value or the sentinel, which every test tells apart; the count is over the 256
addresses. -/
theorem decRomValidityTestsAgree : Obligations.DecRomValidityTestsAgree :=
  ⟨decRom_validity_tests, by decide⟩

/-- The two codes of one letter have the same entry, and a symbol without a variant has only itself (R26, R141). -/
theorem decRom_of_caseVariant {c c' : Symbol} (h : CaseVariant c c') :
    c' = c ∨ (isHexDigit c = true ∧ isHexDigit c' = true ∧ decRom c' = decRom c) := by
  have hlower : ∀ c : Symbol, isLowerCode c = true →
      isHexDigit c = true ∧ isHexDigit (c - 32#8) = true ∧ decRom (c - 32#8) = decRom c := by decide
  have hupper : ∀ c : Symbol, isUpperCode c = true →
      isHexDigit c = true ∧ isHexDigit (c + 32#8) = true ∧ decRom (c + 32#8) = decRom c := by decide
  obtain rfl | ⟨hc, rfl⟩ | ⟨hc, rfl⟩ := h
  · exact .inl rfl
  · exact .inr (hlower c hc)
  · exact .inr (hupper c hc)

theorem decRom_eq_of_caseVariant {c c' : Symbol} (h : CaseVariant c c') : decRom c' = decRom c := by
  obtain rfl | ⟨-, -, heq⟩ := decRom_of_caseVariant h
  · rfl
  · exact heq

/-- Settles O7: the symbol answered has the nibble as its entry, and so has its case variant. -/
theorem lookupsAreInverseOnNibbles : Obligations.LookupsAreInverseOnNibbles := by
  intro n s
  refine ⟨encRom n, exec_eq_next_collect (.encLookup n) s, fun s' c hc => ?_⟩
  rw [exec_eq_next_collect_iff, ← decRom_encRom n, ← decRom_eq_of_caseVariant hc]
  rfl

/-! ### CASE.CONV (R100, R101) -/

/-- Settles O8: the two modes of `caseConv`, the fold's test being that of the six letters. -/
theorem caseConvFoldsSixLetters : Obligations.CaseConvFoldsSixLetters := by
  intro c s
  rw [← foldCase_eq_ite]
  exact ⟨exec_eq_next_collect (.casePass c) s, exec_eq_next_collect (.caseFold c) s⟩

theorem response_caseFold (c : Symbol) : response standard (.caseFold c) = .cased (foldCase c) := rfl

/-- On the six lowercase letters subtracting 32 is clearing bit 5, and no letter stays lowercase. -/
theorem sub_32_of_isLowerCode {c : Symbol} (h : isLowerCode c = true) :
    c - 32#8 = c &&& 0xDF#8 ∧ isLowerCode (c - 32#8) = false := by
  revert c
  decide

theorem foldCase_of_lower {c : Symbol} (h : isLowerCode c = true) : foldCase c = c - 32#8 := by
  rw [foldCase_eq_ite, if_pos h]

theorem foldCase_of_not_lower {c : Symbol} (h : isLowerCode c = false) : foldCase c = c := by
  rw [foldCase_eq_ite, h]
  rfl

theorem isLowerCode_foldCase (c : Symbol) : isLowerCode (foldCase c) = false := by
  cases h : isLowerCode c with
  | false => rw [foldCase_of_not_lower h, h]
  | true => rw [foldCase_of_lower h, (sub_32_of_isLowerCode h).2]

/-- Settles O9: the fold by cases on its test, which no folded symbol passes. -/
theorem caseFoldClearsBitFiveOfLetters : Obligations.CaseFoldClearsBitFiveOfLetters := by
  intro c
  refine ⟨fun h => ?_, fun h => ?_, foldCase c, response_caseFold c, ?_⟩
  · rw [response_caseFold, foldCase_of_lower h, (sub_32_of_isLowerCode h).1]
  · rw [response_caseFold, foldCase_of_not_lower h]
  · rw [response_caseFold, foldCase_of_not_lower (isLowerCode_foldCase c)]

/-! ### The alphabets (R60) -/

/-- An alphabet is the hex digits without the letters of the other case. -/
theorem mem_alphabet_iff {u : Bool} {c : Symbol} :
    c ∈ alphabet u ↔ isHexDigit c = true ∧ if u then isLowerCode c = false else isUpperCode c = false := by
  revert u c
  decide

/-- Every symbol of an alphabet is emitted for some nibble. -/
theorem exists_caseConv_encRom_eq {u : Bool} {c : Symbol} (h : c ∈ alphabet u) :
    ∃ n, caseConv standard (encRom n) u = c := by
  revert u c
  decide

/-! ### EXPAND (R106) -/

theorem expand_fst_mem_alphabet (b : Byte) (u : Bool) : (expand standard b u).1 ∈ alphabet u :=
  caseConv_encRom_mem_alphabet (hiNibble b) u

theorem expand_snd_mem_alphabet (b : Byte) (u : Bool) : (expand standard b u).2 ∈ alphabet u :=
  caseConv_encRom_mem_alphabet (loNibble b) u

/-- COMPACT recovers the byte from the pair. -/
theorem expand_injective {u : Bool} {b b' : Byte} (h : expand standard b u = expand standard b' u) : b = b' :=
  Except.ok.inj ((compact_expand b u true).symm.trans (h ▸ compact_expand b' u true))

/-- Settles O11: both symbols are emitted ones, and COMPACT is a left inverse. -/
theorem expandStaysInAlphabetAndIsInjective : Obligations.ExpandStaysInAlphabetAndIsInjective := fun u b _ =>
  ⟨expand_fst_mem_alphabet b u, expand_snd_mem_alphabet b u, expand_injective⟩

/-! ### ENCODE (R112, R113) -/

theorem encodeSeq_append (cfg : Config) (u : Bool) (x x' : ByteSequence) :
    encodeSeq cfg u (x ++ x') = encodeSeq cfg u x ++ encodeSeq cfg u x' := by
  induction x with
  | nil => rfl
  | cons b x ih => rw [List.cons_append, encodeSeq_cons, ih, encodeSeq_cons, List.cons_append, List.cons_append]

/-- Settles O14: in each mode the three results are `encodeSeq` of the three inputs. -/
theorem encodeOfAppendIsAppend : Obligations.EncodeOfAppendIsAppend := fun x x' s =>
  ⟨⟨_, _, exec_encodeL x s, exec_encodeL x' s, encodeSeq_append standard false x x' ▸ exec_encodeL (x ++ x') s⟩,
    ⟨_, _, exec_encodeU x s, exec_encodeU x' s, encodeSeq_append standard true x x' ▸ exec_encodeU (x ++ x') s⟩⟩

theorem encodeSeq_length_even (cfg : Config) (u : Bool) (x : ByteSequence) : (encodeSeq cfg u x).length % 2 = 0 := by
  rw [encodeSeq_length, Nat.mul_mod_right]

theorem encodeSeq_subset_alphabet (u : Bool) (x : ByteSequence) : ∀ c ∈ encodeSeq standard u x, c ∈ alphabet u := by
  induction x with
  | nil => nofun
  | cons b x ih =>
    rw [encodeSeq_cons, List.forall_mem_cons, List.forall_mem_cons]
    exact ⟨expand_fst_mem_alphabet b u, expand_snd_mem_alphabet b u, ih⟩

/-- DECODE recovers the input. -/
theorem encodeSeq_injective {u : Bool} {x x' : ByteSequence} (h : encodeSeq standard u x = encodeSeq standard u x') :
    x = x' :=
  Except.ok.inj ((decodeSeq_encodeSeq u true x).symm.trans (h ▸ decodeSeq_encodeSeq u true x'))

/-- Settles O15: the output stays in its alphabet, and DECODE is a left inverse. -/
theorem encodeOutputIsValidAndInjective : Obligations.EncodeOutputIsValidAndInjective := by
  intro u x
  refine ⟨fun c hc => ?_, fun g => ⟨x, decodeSeq_encodeSeq u g x⟩, fun x' => encodeSeq_injective⟩
  have hmem := encodeSeq_subset_alphabet u x c hc
  exact ⟨hmem, (mem_alphabet_iff.mp hmem).1⟩

/-- Every even sequence of one alphabet is an output of ENCODE. -/
theorem exists_encodeSeq_eq (u : Bool) :
    ∀ x : ByteSequence, x.length % 2 = 0 → (∀ c ∈ x, c ∈ alphabet u) → ∃ y, encodeSeq standard u y = x := by
  refine even_induction ?nil ?pair
  case nil => exact fun _ => ⟨[], rfl⟩
  case pair =>
    intro c1 c2 x _ ih h
    simp only [List.forall_mem_cons] at h
    obtain ⟨h1, h2, hx⟩ := h
    obtain ⟨hi, rfl⟩ := exists_caseConv_encRom_eq h1
    obtain ⟨lo, rfl⟩ := exists_caseConv_encRom_eq h2
    obtain ⟨y, rfl⟩ := ih hx
    refine ⟨(hi ++ lo) :: y, ?_⟩
    rw [encodeSeq_cons, expand_fst, expand_snd, hiNibble_append, loNibble_append, standard_encRom]

end Sys2Proof.Machine
end

section
/-! SUPPORT. COMPACT pair by pair (42_decoder.md section 1). -/

namespace Sys2Proof.Machine

/-! ### The byte of a pair (R121, R122, R127) -/

/-- Settles O18: the bits of the combine, one by one. -/
theorem combineIsBitwise : Obligations.CombineIsBitwise := by
  intro hi lo
  constructor <;> refine BitVec.eq_of_getLsbD_eq fun i hlt => ?_
  · have hbit : 4 + i < 8 := Nat.add_lt_add_left hlt 4
    simp only [combine, BitVec.getLsbD_or, BitVec.getLsbD_shiftLeft, BitVec.getLsbD_extractLsb']
    simp [hlt, hbit]
  · simp only [combine, BitVec.getLsbD_or, BitVec.getLsbD_shiftLeft, BitVec.getLsbD_extractLsb']
    simp [hlt]

theorem digitValue_lt (c : Symbol) : digitValue c < 16 := by
  revert c
  decide

theorem combine_ofNat : ∀ m < 16, ∀ n < 16,
    combine (BitVec.ofNat 8 m) (BitVec.ofNat 8 n) = BitVec.ofNat 8 (16 * m + n) := by
  decide

theorem combine_invalid_ofNat : ∀ n < 16, combine INVALID (BitVec.ofNat 8 n) = BitVec.ofNat 8 (0xF0 + n) := by
  decide

/-- R121, in the values of the digits. -/
theorem combine_decRom {c1 c2 : Symbol} (h1 : isHexDigit c1 = true) (h2 : isHexDigit c2 = true) :
    combine (decRom c1) (decRom c2) = BitVec.ofNat 8 (16 * digitValue c1 + digitValue c2) := by
  rw [decRom_eq_digitValue h1, decRom_eq_digitValue h2]
  exact combine_ofNat _ (digitValue_lt c1) _ (digitValue_lt c2)

theorem combine_decRom_invalid_right (c1 : Symbol) {c2 : Symbol} (h2 : isHexDigit c2 = false) :
    combine (decRom c1) (decRom c2) = 0xFF#8 := by
  rw [(decRom_eq_invalid_iff c2).mpr h2, combine_invalid_right]

theorem combine_decRom_invalid_left {c1 c2 : Symbol} (h1 : isHexDigit c1 = false) (h2 : isHexDigit c2 = true) :
    combine (decRom c1) (decRom c2) = BitVec.ofNat 8 (0xF0 + digitValue c2) := by
  rw [(decRom_eq_invalid_iff c1).mpr h1, decRom_eq_digitValue h2]
  exact combine_invalid_ofNat _ (digitValue_lt c2)

theorem compact_standard_tolerant (c1 c2 : Symbol) :
    compact standard c1 c2 true = .ok (combine (decRom c1) (decRom c2)) :=
  compact_tolerant standard c1 c2

/-- Settles O16: strict COMPACT's three cases. -/
theorem compactStrictByteOrFirstInvalid : Obligations.CompactStrictByteOrFirstInvalid := by
  intro c1 c2 s
  rw [exec_compactS_iff]
  obtain ⟨h1, h⟩ | ⟨h1, h2, h⟩ | ⟨h1, h2, h⟩ := compact_strict_cases c1 c2
  · rw [h, if_pos h1]
  · rw [h, h1, if_neg nofun, if_pos h2]
  · rw [h, combine_decRom h1 h2, h1, h2, if_neg nofun, if_neg nofun]

/-- Settles O17: the combine of the two entries, by which of the symbols is invalid. -/
theorem compactTolerantCombinesTheSentinel : Obligations.CompactTolerantCombinesTheSentinel := by
  intro c1 c2 s
  rw [exec_compactT_iff, compact_standard_tolerant]
  split_ifs with h2 h1
  · rw [combine_decRom_invalid_right c1 h2]
  · rw [combine_decRom_invalid_left h1 (Bool.eq_true_of_not_eq_false h2)]
  · rw [combine_decRom (Bool.eq_true_of_not_eq_false h1) (Bool.eq_true_of_not_eq_false h2)]

/-! ### Equal outcomes (R126, R129) -/

/-- Two operations have the same outcome where they have the same outputs. -/
theorem exec_eq_exec_iff {i j : Instr} {s : State} :
    exec i s = exec j s ↔ response standard i = response standard j := by
  rw [exec_eq_next_collect j, exec_eq_next_collect_iff]

/-- Settles O19: on a pair of hex digits both modes combine, and on any other pair only strict mode fails. -/
theorem compactModeMattersOnlyForInvalid : Obligations.CompactModeMattersOnlyForInvalid := by
  intro c1 c2 s
  rw [exec_eq_exec_iff, response, response, Response.compacted.injEq, compact_standard_tolerant]
  constructor
  · exact isHexDigit_of_compact_strict_eq_ok
  · rintro ⟨h1, h2⟩
    obtain ⟨h, -⟩ | ⟨-, h, -⟩ | ⟨-, -, h⟩ := compact_strict_cases c1 c2
    · cases h1.symm.trans h
    · cases h2.symm.trans h
    · exact h

theorem exec_compactT_eq_iff {c1 c2 d1 d2 : Symbol} {s : State} :
    exec (.compactT c1 c2) s = exec (.compactT d1 d2) s ↔
      combine (decRom c1) (decRom c2) = combine (decRom d1) (decRom d2) := by
  rw [exec_eq_exec_iff, response, response, Response.compacted.injEq, compact_standard_tolerant,
    compact_standard_tolerant, Except.ok.injEq]

/-- Settles O20: `f` has the value 15, whose low four bits are the sentinel's. -/
theorem tolerantOutputIsNotReversible : Obligations.TolerantOutputIsNotReversible := by
  intro c1 c2 s
  have hf : isHexDigit 0x66#8 = true := rfl
  constructor
  · intro h2
    rw [exec_compactT_eq_iff, combine_decRom_invalid_right c1 h2, combine_decRom hf hf]
    rfl
  · intro h1 h2
    rw [exec_compactT_eq_iff, combine_decRom_invalid_left h1 h2, combine_decRom hf h2]
    rfl

end Sys2Proof.Machine
end

section
/-! SUPPORT. DECODE (42_decoder.md sections 2 and 3). -/

namespace Sys2Proof.Machine

/-! ### The loop, pair by pair (R131) -/

theorem decodePairs_cons (cfg : Config) (g : Bool) (c1 c2 : Symbol) (x : ByteSequence) :
    decodePairs cfg g (c1 :: c2 :: x) =
      (compact cfg c1 c2 g).bind fun b => (decodePairs cfg g x).map (b :: ·) := by
  cases h : compact cfg c1 c2 g with
  | error e => exact decodePairs_cons_error x h
  | ok b => exact decodePairs_cons_ok x h

/-- Where COMPACT agrees on the symbols of the input, so does the loop. -/
theorem decodePairs_congr {cfg cfg' : Config} {g g' : Bool} :
    ∀ x : ByteSequence, x.length % 2 = 0 →
      (∀ c1 ∈ x, ∀ c2 ∈ x, compact cfg c1 c2 g = compact cfg' c1 c2 g') →
      decodePairs cfg g x = decodePairs cfg' g' x := by
  refine even_induction ?nil ?pair
  case nil => exact fun _ => rfl
  case pair =>
    intro c1 c2 x _ ih h
    have hx := ih fun d1 h1 d2 h2 => h d1 (.tail _ (.tail _ h1)) d2 (.tail _ (.tail _ h2))
    rw [decodePairs_cons, decodePairs_cons, h c1 (.head _) c2 (.tail _ (.head _)), hx]

/-- On valid symbols the mode does not matter. -/
theorem decodePairs_mode_of_valid {cfg : Config} {x : ByteSequence} (g g' : Bool) (heven : x.length % 2 = 0)
    (h : ∀ c ∈ x, cfg.decRom c ≠ INVALID) : decodePairs cfg g x = decodePairs cfg g' x :=
  decodePairs_congr x heven fun c1 h1 c2 h2 => by
    rw [compact_of_valid g (h c1 h1) (h c2 h2), compact_of_valid g' (h c1 h1) (h c2 h2)]

theorem decodePairs_tolerant_eq_ok (cfg : Config) {x : ByteSequence} (heven : x.length % 2 = 0) :
    ∃ y, decodePairs cfg true x = .ok y := by
  cases h : decodePairs cfg true x with
  | ok y => exact ⟨y, rfl⟩
  | error e => exact absurd h (decodePairs_tolerant_ne_error cfg e x heven)

/-- Output byte `k` is COMPACT's of pair `k` (R133). -/
theorem decodePairs_ok_getElem? {cfg : Config} {g : Bool} :
    ∀ x : ByteSequence, x.length % 2 = 0 → ∀ y, decodePairs cfg g x = .ok y →
      ∀ k c1 c2, x[2 * k]? = some c1 → x[2 * k + 1]? = some c2 →
        ∃ b, compact cfg c1 c2 g = .ok b ∧ y[k]? = some b := by
  refine even_induction ?nil ?pair
  case nil => exact fun _ _ _ _ _ => nofun
  case pair =>
    intro c1 c2 x _ ih y h k d1 d2 h1 h2
    obtain ⟨b, y', hb, hx, rfl⟩ := decodePairs_cons_eq_ok h
    cases k with
    | zero =>
      cases h1
      cases h2
      exact ⟨b, hb, rfl⟩
    | succ k => exact ih y' hx k d1 d2 h1 h2

/-! ### Success (R136) -/

theorem decRom_ne_invalid_iff {c : Symbol} : decRom c ≠ INVALID ↔ isHexDigit c = true := by
  rw [Ne, decRom_eq_invalid_iff, Bool.not_eq_false]

/-- What an even sequence of hex digits decodes to does not depend on the mode. -/
theorem decodeSeq_mode_of_isHexDigit {x : ByteSequence} (g g' : Bool) (heven : x.length % 2 = 0)
    (hx : ∀ c ∈ x, isHexDigit c = true) : decodeSeq standard g x = decodeSeq standard g' x := by
  rw [decodeSeq_of_even standard g heven, decodeSeq_of_even standard g' heven]
  exact decodePairs_mode_of_valid g g' heven fun c hc => decRom_ne_invalid_iff.mpr (hx c hc)

theorem decodeSeq_tolerant_of_even (cfg : Config) {x : ByteSequence} (heven : x.length % 2 = 0) :
    ∃ y, decodeSeq cfg true x = .ok y := by
  rw [decodeSeq_of_even cfg true heven]
  exact decodePairs_tolerant_eq_ok cfg heven

theorem even_of_decodeSeq_eq_ok {cfg : Config} {g : Bool} {x y : ByteSequence} (h : decodeSeq cfg g x = .ok y) :
    x.length % 2 = 0 := by
  rw [← decodeSeq_ok_length h, Nat.mul_mod_right]

theorem decodeSeq_ok_length_half {cfg : Config} {g : Bool} {x y : ByteSequence} (h : decodeSeq cfg g x = .ok y) :
    y.length = x.length / 2 := by
  rw [← decodeSeq_ok_length h, Nat.mul_div_cancel_left _ Nat.two_pos]

theorem decodeSeq_ok_getElem? {cfg : Config} {g : Bool} {x y : ByteSequence} (h : decodeSeq cfg g x = .ok y)
    {k : Nat} {c1 c2 : Symbol} (h1 : x[2 * k]? = some c1) (h2 : x[2 * k + 1]? = some c2) :
    ∃ b, compact cfg c1 c2 g = .ok b ∧ y[k]? = some b := by
  have heven := even_of_decodeSeq_eq_ok h
  rw [decodeSeq_of_even cfg g heven] at h
  exact decodePairs_ok_getElem? x heven y h k c1 c2 h1 h2

/-- Settles O23: tolerant mode never fails on an even length, and each of its bytes is COMPACT.T's. -/
theorem decodeTolerantDecodesEveryEvenLength : Obligations.DecodeTolerantDecodesEveryEvenLength := by
  intro x s heven
  obtain ⟨y, hy⟩ := decodeSeq_tolerant_of_even standard heven
  refine ⟨y, exec_decodeT_iff.mpr hy, decodeSeq_ok_length_half hy, fun k c1 c2 h1 h2 => ?_⟩
  obtain ⟨b, hb, hk⟩ := decodeSeq_ok_getElem? hy h1 h2
  exact ⟨b, hk, exec_compactT_iff.mpr hb⟩

/-- Settles O22: on hex digits strict mode does as tolerant mode, whose bytes are the combined values. -/
theorem decodeStrictDecodesHexDigits : Obligations.DecodeStrictDecodesHexDigits := by
  intro x s heven hx
  obtain ⟨y, hy⟩ := decodeSeq_tolerant_of_even standard heven
  have hstrict : decodeSeq standard false x = .ok y := (decodeSeq_mode_of_isHexDigit false true heven hx).trans hy
  refine ⟨y, exec_decodeS_iff.mpr hstrict, decodeSeq_ok_length_half hy, fun k c1 c2 h1 h2 => ?_⟩
  obtain ⟨b, hb, hk⟩ := decodeSeq_ok_getElem? hy h1 h2
  rw [compact_standard_tolerant,
    combine_decRom (hx c1 (List.mem_of_getElem? h1)) (hx c2 (List.mem_of_getElem? h2))] at hb
  rw [hk, Except.ok.inj hb]

/-! ### Failure (R139, R157) -/

/-- COMPACT has no OddLength, in either mode and on any machine (R154). -/
theorem compact_ne_oddLength (cfg : Config) (c1 c2 : Symbol) (g : Bool) :
    compact cfg c1 c2 g ≠ .error .oddLength := by
  unfold compact
  split <;> nofun

theorem decodePairs_ne_oddLength (cfg : Config) (g : Bool) :
    ∀ x : ByteSequence, x.length % 2 = 0 → decodePairs cfg g x ≠ .error .oddLength := by
  refine even_induction ?nil ?pair
  case nil => exact nofun
  case pair =>
    intro c1 c2 x _ ih h
    obtain hc | hx := decodePairs_cons_eq_error h
    · exact compact_ne_oddLength cfg c1 c2 g hc
    · exact ih hx

theorem decodeSeq_eq_oddLength_iff {cfg : Config} {g : Bool} {x : ByteSequence} :
    decodeSeq cfg g x = .error .oddLength ↔ x.length % 2 = 1 := by
  refine ⟨fun h => ?_, decodeSeq_of_odd cfg g⟩
  by_contra hodd
  have heven : x.length % 2 = 0 := Nat.mod_two_ne_one.mp hodd
  exact decodePairs_ne_oddLength cfg g x heven (decodeSeq_of_even cfg g heven ▸ h)

/-- An InvalidByte comes from an even length (R156). -/
theorem even_of_decodeSeq_eq_invalidByte {cfg : Config} {g : Bool} {x : ByteSequence} {c : Symbol}
    (h : decodeSeq cfg g x = .error (.invalidByte c)) : x.length % 2 = 0 := by
  by_contra hodd
  rw [decodeSeq_of_odd cfg g (Nat.mod_two_ne_zero.mp hodd)] at h
  cases h

/-- Settles O27: strict success means hex digits alone, OddLength the parity, and tolerant mode fails only with it. -/
theorem decodeModesAgreeWhereStrictSucceeds : Obligations.DecodeModesAgreeWhereStrictSucceeds := by
  intro x
  refine ⟨fun y h => ?_, decodeSeq_eq_oddLength_iff.trans decodeSeq_eq_oddLength_iff.symm, fun c h => ?_, fun c h => ?_⟩
  · have heven := even_of_decodeSeq_eq_ok h
    rw [← h]
    refine decodeSeq_mode_of_isHexDigit true false heven ?_
    exact isHexDigit_of_decodePairs_strict_eq_ok x heven y (decodeSeq_of_even standard false heven ▸ h)
  · obtain ⟨y, hy⟩ := decodeSeq_tolerant_of_even standard (even_of_decodeSeq_eq_invalidByte h)
    exact ⟨y, hy, decodeSeq_ok_length_half hy⟩
  · obtain ⟨y, hy⟩ := decodeSeq_tolerant_of_even standard (even_of_decodeSeq_eq_invalidByte h)
    cases hy.symm.trans h

/-- The symbol at the least index that holds no hex digit character. -/
def firstInvalid (x : ByteSequence) : Option Symbol := x.find? fun c => !isHexDigit c

theorem firstInvalid_eq_some_iff {x : ByteSequence} {c : Symbol} :
    firstInvalid x = some c ↔
      ∃ j : Nat, x[j]? = some c ∧ isHexDigit c = false ∧ ∀ i < j, ∀ d, x[i]? = some d → isHexDigit d = true := by
  rw [firstInvalid, List.find?_eq_some_iff_getElem]
  constructor
  · rintro ⟨hc, j, hj, rfl, hbefore⟩
    refine ⟨j, List.getElem?_eq_getElem hj, by simpa using hc, fun i hi d hd => ?_⟩
    obtain ⟨hlt, rfl⟩ := List.getElem?_eq_some_iff.mp hd
    simpa using hbefore i hi
  · rintro ⟨j, hj, hc, hbefore⟩
    obtain ⟨hlt, rfl⟩ := List.getElem?_eq_some_iff.mp hj
    refine ⟨by simpa using hc, j, hlt, rfl, fun i hi => ?_⟩
    simpa using hbefore i hi _ (List.getElem?_eq_getElem (hi.trans hlt))

theorem firstInvalid_cons_invalid {c : Symbol} (x : ByteSequence) (h : isHexDigit c = false) :
    firstInvalid (c :: x) = some c := by
  simp [firstInvalid, h]

theorem firstInvalid_cons_valid {c : Symbol} (x : ByteSequence) (h : isHexDigit c = true) :
    firstInvalid (c :: x) = firstInvalid x := by
  simp [firstInvalid, h]

/-- The strict loop reports the first invalid symbol: within a pair `c1` is examined first (D8), and the pairs are taken
in order. -/
theorem decodePairs_strict_eq_invalidByte_iff {c : Symbol} :
    ∀ x : ByteSequence, x.length % 2 = 0 →
      (decodePairs standard false x = .error (.invalidByte c) ↔ firstInvalid x = some c) := by
  refine even_induction ?nil ?pair
  case nil => exact ⟨nofun, nofun⟩
  case pair =>
    intro c1 c2 x _ ih
    obtain ⟨h1, hc⟩ | ⟨h1, h2, hc⟩ | ⟨h1, h2, hc⟩ := compact_strict_cases c1 c2
    · rw [decodePairs_cons_error x hc, firstInvalid_cons_invalid _ h1]
      simp
    · rw [decodePairs_cons_error x hc, firstInvalid_cons_valid _ h1, firstInvalid_cons_invalid _ h2]
      simp
    · rw [decodePairs_cons_ok x hc, firstInvalid_cons_valid _ h1, firstInvalid_cons_valid _ h2, ← ih]
      cases decodePairs standard false x <;> simp [Except.map]

/-- Settles O26: an even length leaves the loop, which reports the first invalid symbol. -/
theorem decodeStrictReportsTheLeastInvalid : Obligations.DecodeStrictReportsTheLeastInvalid := by
  intro x s c
  rw [exec_decodeS_iff, ← firstInvalid_eq_some_iff]
  constructor
  · intro h
    have heven := even_of_decodeSeq_eq_invalidByte h
    rw [decodeSeq_of_even standard false heven] at h
    exact ⟨heven, (decodePairs_strict_eq_invalidByte_iff x heven).mp h⟩
  · rintro ⟨heven, hfirst⟩
    rw [decodeSeq_of_even standard false heven]
    exact (decodePairs_strict_eq_invalidByte_iff x heven).mpr hfirst

/-! ### Case, chunks, and ENCODE of DECODE (R141, R142, R144) -/

/-- Strict mode reports the same symbol, since an invalid one has no other case. -/
theorem reportedInvalid_of_caseVariant {c1 c2 d1 d2 : Symbol} (h1 : CaseVariant c1 d1) (h2 : CaseVariant c2 d2) :
    reportedInvalid standard d1 d2 = reportedInvalid standard c1 c2 := by
  rw [reportedInvalid_standard, reportedInvalid_standard]
  obtain rfl | ⟨hc1, hd1, -⟩ := decRom_of_caseVariant h1 <;>
    obtain rfl | ⟨hc2, hd2, -⟩ := decRom_of_caseVariant h2 <;> simp [*]

theorem compact_of_caseVariant {c1 c2 d1 d2 : Symbol} (g : Bool) (h1 : CaseVariant c1 d1) (h2 : CaseVariant c2 d2) :
    compact standard d1 d2 g = compact standard c1 c2 g := by
  unfold compact
  rw [reportedInvalid_of_caseVariant h1 h2]
  simp only [decLookup_eq, standard_decRom, decRom_eq_of_caseVariant h1, decRom_eq_of_caseVariant h2]

theorem decodePairs_of_caseVariant (g : Bool) :
    ∀ x : ByteSequence, x.length % 2 = 0 → ∀ x', List.Forall₂ CaseVariant x x' →
      decodePairs standard g x' = decodePairs standard g x := by
  refine even_induction ?nil ?pair
  case nil =>
    rintro _ ⟨⟩
    rfl
  case pair =>
    rintro c1 c2 x _ ih _ (_ | ⟨h1, _ | ⟨h2, hx⟩⟩)
    rw [decodePairs_cons, decodePairs_cons, compact_of_caseVariant g h1 h2, ih _ hx]

theorem decodeSeq_of_caseVariant (g : Bool) {x x' : ByteSequence} (h : List.Forall₂ CaseVariant x x') :
    decodeSeq standard g x' = decodeSeq standard g x := by
  obtain heven | hodd := Nat.mod_two_eq_zero_or_one x.length
  · rw [decodeSeq_of_even standard g heven, decodeSeq_of_even standard g (h.length_eq ▸ heven)]
    exact decodePairs_of_caseVariant g x heven x' h
  · rw [decodeSeq_of_odd standard g hodd, decodeSeq_of_odd standard g (h.length_eq ▸ hodd)]

/-- Settles O29: in each mode the outputs are equal. -/
theorem decodeIsCaseInsensitive : Obligations.DecodeIsCaseInsensitive := fun _ _ _ h =>
  ⟨exec_eq_exec_iff.mpr (congrArg Response.decoded (decodeSeq_of_caseVariant false h)),
    exec_eq_exec_iff.mpr (congrArg Response.decoded (decodeSeq_of_caseVariant true h))⟩

theorem decodePairs_append (cfg : Config) (g : Bool) (x' : ByteSequence) :
    ∀ x : ByteSequence, x.length % 2 = 0 →
      decodePairs cfg g (x ++ x') =
        (decodePairs cfg g x).bind fun y => (decodePairs cfg g x').map (y ++ ·) := by
  refine even_induction ?nil ?pair
  case nil =>
    rw [List.nil_append, decodePairs_nil]
    cases decodePairs cfg g x' <;> rfl
  case pair =>
    intro c1 c2 x _ ih
    rw [List.cons_append, List.cons_append, decodePairs_cons, decodePairs_cons, ih]
    cases compact cfg c1 c2 g <;> cases decodePairs cfg g x <;> cases decodePairs cfg g x' <;> rfl

/-- Settles O30: the loop runs through the first chunk and then through the second; parities that differ add up to an
odd length. -/
theorem decodeOfAppendDecodesChunks : Obligations.DecodeOfAppendDecodesChunks := by
  intro g x x'
  refine ⟨fun heven heven' => ?_, fun hne => ?_⟩
  · have happend : (x ++ x').length % 2 = 0 := by rw [List.length_append]; omega
    rw [decodeSeq_of_even standard g heven, decodeSeq_of_even standard g heven',
      decodeSeq_of_even standard g happend, decodePairs_append standard g x' x heven]
    cases decodePairs standard g x <;> cases decodePairs standard g x' <;> rfl
  · refine decodeSeq_of_odd standard g ?_
    rw [List.length_append]
    omega

/-- A sequence of one alphabet is one of hex digits with every letter in its case. -/
theorem forall_mem_alphabet_iff {u : Bool} {x : ByteSequence} :
    (∀ c ∈ x, c ∈ alphabet u) ↔ (∀ c ∈ x, isHexDigit c = true) ∧ lettersInCase u x := by
  simp only [mem_alphabet_iff, lettersInCase, forall_and]

/-- Settles O31: the sequences described are ENCODE's outputs in the mode `u`, which DECODE takes back. -/
theorem encodeOfDecodeOnlyInOneCase : Obligations.EncodeOfDecodeOnlyInOneCase := by
  intro g u x
  rw [← forall_mem_alphabet_iff]
  constructor
  · rintro ⟨y, -, rfl⟩
    exact ⟨encodeSeq_length_even standard u y, encodeSeq_subset_alphabet u y⟩
  · rintro ⟨heven, hx⟩
    obtain ⟨y, rfl⟩ := exists_encodeSeq_eq u x heven hx
    exact ⟨y, decodeSeq_encodeSeq u g y, rfl⟩

/-! ### The rendering of errors (R71, R72, R78, R153) -/

theorem errCode_ne_three {α : Type} (r : Except DecodeError α) : errCode r ≠ 3#2 := by
  match r with
  | .ok _ | .error .oddLength | .error (.invalidByte _) => simp [errCode]

/-- Only InvalidByte has a symbol. -/
theorem errSym_of_errCode_ne_two {α : Type} {r : Except DecodeError α} (h : errCode r ≠ 2#2) : errSym r = 0#8 := by
  match r with
  | .ok _ | .error .oddLength => rfl
  | .error (.invalidByte _) => exact absurd rfl h

/-- Code 0 is success. -/
theorem errCode_ne_zero_iff {α : Type} {r : Except DecodeError α} : errCode r ≠ 0#2 ↔ ∃ e, r = .error e := by
  match r with
  | .ok _ => simp [errCode]
  | .error .oddLength | .error (.invalidByte _) => simp [errCode]

/-- Code 1 is OddLength. -/
theorem errCode_eq_one_iff {α : Type} {r : Except DecodeError α} : errCode r = 1#2 ↔ r = .error .oddLength := by
  match r with
  | .ok _ | .error .oddLength | .error (.invalidByte _) => simp [errCode]

theorem decodeOutputs_eq_none_iff {r : Except DecodeError ByteSequence} :
    (decodeOutputs r).2.2 = none ↔ ∃ e, r = .error e := by
  cases r <;> simp [decodeOutputs, Except.toOption]

/-- Settles O33: which results have which code, and COMPACT has no OddLength. -/
theorem errorCodesAndPadding : Obligations.ErrorCodesAndPadding := by
  refine ⟨fun r => ⟨errCode_ne_three r, errSym_of_errCode_ne_two, fun h => ?_⟩,
    fun r => ⟨errCode_ne_three r, errSym_of_errCode_ne_two, errCode_ne_zero_iff.trans decodeOutputs_eq_none_iff.symm⟩,
    fun c1 c2 g h => compact_ne_oddLength standard c1 c2 g (errCode_eq_one_iff.mp h)⟩
  obtain ⟨e, rfl⟩ := errCode_ne_zero_iff.mp h
  rfl

end Sys2Proof.Machine
end

section
/-! SUPPORT. The ROM locations an operation reads (20_memory.md section 1). -/

namespace Sys2Proof.Machine

/-! ### Outputs depend on the reads alone (R41) -/

theorem expand_congr {cfg cfg' : Config} {b : Byte} (u : Bool) (hf : cfg'.fold = cfg.fold)
    (h : ∀ a ∈ expandReads b, memRead cfg' a = memRead cfg a) : expand cfg' b u = expand cfg b u := by
  have hhi : encLookup cfg' (hiNibble b) = encLookup cfg (hiNibble b) := h _ (.head _)
  have hlo : encLookup cfg' (loNibble b) = encLookup cfg (loNibble b) := h _ (.tail _ (.head _))
  simp only [expand, caseConv, hhi, hlo, hf]

/-- Where EXPAND agrees on the bytes of the input, so does ENCODE. -/
theorem encodeSeq_congr {cfg cfg' : Config} {u : Bool} {x : ByteSequence}
    (h : ∀ b ∈ x, expand cfg' b u = expand cfg b u) : encodeSeq cfg' u x = encodeSeq cfg u x := by
  induction x with
  | nil => rfl
  | cons b x ih =>
    obtain ⟨hb, hx⟩ := List.forall_mem_cons.mp h
    rw [encodeSeq_cons, encodeSeq_cons, hb, ih hx]

theorem encodeSeq_congr_reads {cfg cfg' : Config} (u : Bool) {x : ByteSequence} (hf : cfg'.fold = cfg.fold)
    (h : ∀ a ∈ x.flatMap expandReads, memRead cfg' a = memRead cfg a) : encodeSeq cfg' u x = encodeSeq cfg u x :=
  encodeSeq_congr fun _ hb => expand_congr u hf fun a ha => h a (List.mem_flatMap_of_mem hb ha)

theorem pairReads_cons_error {cfg : Config} {g : Bool} {c1 c2 : Symbol} {e : DecodeError} (x : ByteSequence)
    (h : compact cfg c1 c2 g = .error e) : pairReads cfg g (c1 :: c2 :: x) = [.dec c1, .dec c2] := by
  simp only [pairReads, h]

theorem pairReads_cons_ok {cfg : Config} {g : Bool} {c1 c2 : Symbol} {b : Byte} (x : ByteSequence)
    (h : compact cfg c1 c2 g = .ok b) :
    pairReads cfg g (c1 :: c2 :: x) = .dec c1 :: .dec c2 :: pairReads cfg g x := by
  simp only [pairReads, h]

/-- Every pair the loop reaches is read, the failing one too. -/
theorem mem_pairReads_head {cfg : Config} {g : Bool} (c1 c2 : Symbol) (x : ByteSequence) :
    .dec c1 ∈ pairReads cfg g (c1 :: c2 :: x) ∧ .dec c2 ∈ pairReads cfg g (c1 :: c2 :: x) :=
  ⟨.head _, .tail _ (.head _)⟩

theorem decodePairs_congr_reads {cfg cfg' : Config} {g : Bool} (ht : cfg'.tol = cfg.tol)
    (ho : cfg'.c1First = cfg.c1First) :
    ∀ x : ByteSequence, x.length % 2 = 0 → (∀ a ∈ pairReads cfg g x, memRead cfg' a = memRead cfg a) →
      decodePairs cfg' g x = decodePairs cfg g x := by
  refine even_induction ?nil ?pair
  case nil => exact fun _ => rfl
  case pair =>
    intro c1 c2 x _ ih h
    obtain ⟨h1, h2⟩ := mem_pairReads_head (cfg := cfg) (g := g) c1 c2 x
    have hpair : compact cfg' c1 c2 g = compact cfg c1 c2 g := compact_congr g (h _ h1) (h _ h2) ht ho
    cases hc : compact cfg c1 c2 g with
    | error e => rw [decodePairs_cons_error x (hpair.trans hc), decodePairs_cons_error x hc]
    | ok b =>
      rw [pairReads_cons_ok x hc] at h
      rw [decodePairs_cons_ok x (hpair.trans hc), decodePairs_cons_ok x hc,
        ih fun a ha => h a (.tail _ (.tail _ ha))]

/-- DECODE's reads: none on an odd length, the loop's otherwise (R132, R156). -/
def decodeReads (cfg : Config) (g : Bool) (x : ByteSequence) : List Addr :=
  if x.length % 2 = 1 then [] else pairReads cfg g x

theorem romReads_decodeS (cfg : Config) (x : ByteSequence) : romReads cfg (.decodeS x) = decodeReads cfg false x := rfl

theorem romReads_decodeT (cfg : Config) (x : ByteSequence) : romReads cfg (.decodeT x) = decodeReads cfg true x := rfl

theorem decodeReads_of_odd {cfg : Config} {g : Bool} {x : ByteSequence} (h : x.length % 2 = 1) :
    decodeReads cfg g x = [] := if_pos h

theorem decodeReads_of_even {cfg : Config} {g : Bool} {x : ByteSequence} (h : x.length % 2 = 0) :
    decodeReads cfg g x = pairReads cfg g x := if_neg (by omega)

theorem decodeSeq_congr_reads {cfg cfg' : Config} {g : Bool} {x : ByteSequence} (ht : cfg'.tol = cfg.tol)
    (ho : cfg'.c1First = cfg.c1First) (h : ∀ a ∈ decodeReads cfg g x, memRead cfg' a = memRead cfg a) :
    decodeSeq cfg' g x = decodeSeq cfg g x := by
  obtain heven | hodd := Nat.mod_two_eq_zero_or_one x.length
  · rw [decodeReads_of_even heven] at h
    rw [decodeSeq_of_even cfg' g heven, decodeSeq_of_even cfg g heven]
    exact decodePairs_congr_reads ht ho x heven h
  · rw [decodeSeq_of_odd cfg' g hodd, decodeSeq_of_odd cfg g hodd]

/-- Settles O40: each of the functions an operation is made of depends on its own reads. -/
theorem outputsDependOnlyOnTheReads : Obligations.OutputsDependOnlyOnTheReads := by
  intro cfg cfg' i ht hf ho h
  cases i with
  | encLookup n => exact congrArg Response.symbol (h (.enc n) (.head _))
  | decLookup c => exact congrArg Response.value (h (.dec c) (.head _))
  | casePass c => rfl
  | caseFold c => rw [response, response, caseConv_true, caseConv_true, hf]
  | expandL b => rw [response, response, expand_congr false hf h]
  | expandU b => rw [response, response, expand_congr true hf h]
  | compactS c1 c2 =>
    exact congrArg Response.compacted (compact_congr false (h _ (.head _)) (h _ (.tail _ (.head _))) ht ho)
  | compactT c1 c2 =>
    exact congrArg Response.compacted (compact_congr true (h _ (.head _)) (h _ (.tail _ (.head _))) ht ho)
  | encodeL x => exact congrArg Response.encoded (encodeSeq_congr_reads false hf h)
  | encodeU x => exact congrArg Response.encoded (encodeSeq_congr_reads true hf h)
  | decodeS x => exact congrArg Response.decoded (decodeSeq_congr_reads ht ho h)
  | decodeT x => exact congrArg Response.decoded (decodeSeq_congr_reads ht ho h)

/-! ### How many reads, and in which space (R41) -/

theorem encodeReads_length (x : ByteSequence) : (x.flatMap expandReads).length = 2 * x.length := by
  induction x with
  | nil => rfl
  | cons b x ih =>
    have hpair : (expandReads b).length = 2 := rfl
    rw [List.flatMap_cons, List.length_append, ih, hpair, List.length_cons, Nat.mul_succ, Nat.add_comm]

theorem pairReads_length_le (cfg : Config) (g : Bool) :
    ∀ x : ByteSequence, x.length % 2 = 0 → (pairReads cfg g x).length ≤ x.length := by
  refine even_induction ?nil ?pair
  case nil => exact Nat.le_refl 0
  case pair =>
    intro c1 c2 x _ ih
    cases hc : compact cfg c1 c2 g with
    | error e => simp [pairReads_cons_error x hc]
    | ok b => simpa [pairReads_cons_ok x hc] using ih

/-- A loop that succeeds has read every symbol. -/
theorem pairReads_length_of_ok {cfg : Config} {g : Bool} :
    ∀ x : ByteSequence, x.length % 2 = 0 → ∀ y, decodePairs cfg g x = .ok y →
      (pairReads cfg g x).length = x.length := by
  refine even_induction ?nil ?pair
  case nil => exact fun _ _ => rfl
  case pair =>
    intro c1 c2 x _ ih y h
    obtain ⟨b, y', hb, hx, -⟩ := decodePairs_cons_eq_ok h
    rw [pairReads_cons_ok x hb, List.length_cons, List.length_cons, ih y' hx, List.length_cons, List.length_cons]

theorem decodeReads_length_le (cfg : Config) (g : Bool) (x : ByteSequence) :
    (decodeReads cfg g x).length ≤ x.length := by
  obtain heven | hodd := Nat.mod_two_eq_zero_or_one x.length
  · rw [decodeReads_of_even heven]
    exact pairReads_length_le cfg g x heven
  · rw [decodeReads_of_odd hodd]
    exact Nat.zero_le _

theorem decodeReads_length_of_ok {cfg : Config} {g : Bool} {x y : ByteSequence} (h : decodeSeq cfg g x = .ok y) :
    (decodeReads cfg g x).length = x.length := by
  have heven := even_of_decodeSeq_eq_ok h
  rw [decodeSeq_of_even cfg g heven] at h
  rw [decodeReads_of_even heven]
  exact pairReads_length_of_ok x heven y h

theorem inEnc_of_mem_expandReads {b : Byte} {a : Addr} (h : a ∈ expandReads b) : a.inEnc = true := by
  obtain rfl | rfl : a = .enc (hiNibble b) ∨ a = .enc (loNibble b) := by simpa [expandReads] using h
  · rfl
  · rfl

theorem inEnc_of_mem_encodeReads {x : ByteSequence} {a : Addr} (h : a ∈ x.flatMap expandReads) : a.inEnc = true := by
  obtain ⟨b, -, hb⟩ := List.mem_flatMap.mp h
  exact inEnc_of_mem_expandReads hb

theorem inEnc_of_mem_pair {c1 c2 : Symbol} {a : Addr} (h : a ∈ [Addr.dec c1, Addr.dec c2]) : a.inEnc = false := by
  obtain rfl | rfl : a = .dec c1 ∨ a = .dec c2 := by simpa using h
  · rfl
  · rfl

theorem inEnc_of_mem_pairReads {cfg : Config} {g : Bool} {a : Addr} :
    ∀ x : ByteSequence, x.length % 2 = 0 → a ∈ pairReads cfg g x → a.inEnc = false := by
  refine even_induction ?nil ?pair
  case nil => exact nofun
  case pair =>
    intro c1 c2 x _ ih h
    cases hc : compact cfg c1 c2 g with
    | error e =>
      rw [pairReads_cons_error x hc] at h
      exact inEnc_of_mem_pair h
    | ok b =>
      rw [pairReads_cons_ok x hc] at h
      obtain hpair | hrest := List.mem_append.mp (show a ∈ [Addr.dec c1, Addr.dec c2] ++ pairReads cfg g x from h)
      · exact inEnc_of_mem_pair hpair
      · exact ih hrest

theorem inEnc_of_mem_decodeReads {cfg : Config} {g : Bool} {x : ByteSequence} {a : Addr}
    (h : a ∈ decodeReads cfg g x) : a.inEnc = false := by
  obtain heven | hodd := Nat.mod_two_eq_zero_or_one x.length
  · rw [decodeReads_of_even heven] at h
    exact inEnc_of_mem_pairReads x heven h
  · rw [decodeReads_of_odd hodd] at h
    cases h

/-- The encoder path and ENC.LOOKUP read ENC only, the decoder path and DEC.LOOKUP read DEC only. -/
theorem inEnc_iff_of_mem_romReads {i : Instr} {a : Addr} (h : a ∈ romReads standard i) :
    a.inEnc = true ↔
      (∃ n, i = .encLookup n) ∨ (∃ b, i = .expandL b ∨ i = .expandU b) ∨ ∃ x, i = .encodeL x ∨ i = .encodeU x := by
  cases i with
  | encLookup n =>
    obtain rfl := List.mem_singleton.mp h
    simp [Addr.inEnc]
  | decLookup c =>
    obtain rfl := List.mem_singleton.mp h
    simp [Addr.inEnc]
  | casePass | caseFold => cases h
  | expandL | expandU => simp [inEnc_of_mem_expandReads h]
  | compactS | compactT => simp [inEnc_of_mem_pair h]
  | encodeL | encodeU => simp [inEnc_of_mem_encodeReads h]
  | decodeS | decodeT => simp [inEnc_of_mem_decodeReads h]

/-- What R41 says of the operations on sequences. -/
theorem sequence_read_counts (x : ByteSequence) :
    (romReads standard (.encodeL x)).length = 2 * x.length ∧ (romReads standard (.encodeU x)).length = 2 * x.length ∧
      (x.length % 2 = 1 → romReads standard (.decodeS x) = [] ∧ romReads standard (.decodeT x) = []) ∧
      (x.length % 2 = 0 → (romReads standard (.decodeT x)).length = x.length) ∧
      (romReads standard (.decodeS x)).length ≤ x.length ∧
      (∀ y, decodeSeq standard false x = .ok y → (romReads standard (.decodeS x)).length = x.length) := by
  rw [romReads_decodeS, romReads_decodeT]
  refine ⟨encodeReads_length x, encodeReads_length x, fun hodd => ⟨decodeReads_of_odd hodd, decodeReads_of_odd hodd⟩,
    fun heven => ?_, decodeReads_length_le standard false x, fun y h => decodeReads_length_of_ok h⟩
  obtain ⟨y, hy⟩ := decodeSeq_tolerant_of_even standard heven
  exact decodeReads_length_of_ok hy

/-- Settles O41: the reads of the blocks are lists written out, those of the sequence operations are counted by
induction. -/
theorem romReadCounts : Obligations.RomReadCounts :=
  ⟨fun _ => rfl, fun _ => rfl, fun _ => ⟨rfl, rfl⟩, fun _ _ => ⟨rfl, rfl⟩, fun _ => ⟨rfl, rfl⟩, sequence_read_counts,
    fun _ _ => inEnc_iff_of_mem_romReads⟩

end Sys2Proof.Machine
end

section
/-! SUPPORT. Every admissible choice of the open parameters (93_implementation_defined.md U1 to U3). -/

namespace Sys2Proof

open Machine

/-! ### What admissibility fixes -/

/-- U2: CASE.CONV of an emitted symbol is the spec's. -/
theorem Config.Admissible.expand_eq {cfg : Config} (h : cfg.Admissible) (b : Byte) (u : Bool) :
    expand cfg b u = expand standard b u := by
  cases u <;> simp [expand, h.encRom_eq, h.fold_emitted]

/-- U1: the byte of two hex digits is the combine of their values. -/
theorem Config.Admissible.tol_decRom {cfg : Config} (h : cfg.Admissible) {c1 c2 : Symbol}
    (h1 : isHexDigit c1 = true) (h2 : isHexDigit c2 = true) :
    cfg.tol (cfg.decRom c1) (cfg.decRom c2) = combine (Machine.decRom c1) (Machine.decRom c2) := by
  rw [h.decRom_eq, decRom_of_isHexDigit h1, decRom_of_isHexDigit h2, h.tol_valid, combine_nibbles]

theorem Config.Admissible.ne_invalid_iff {cfg : Config} (h : cfg.Admissible) {c : Symbol} :
    cfg.decRom c ≠ INVALID ↔ isHexDigit c = true := by
  rw [h.decRom_eq, decRom_ne_invalid_iff]

theorem Config.Admissible.eq_invalid_iff {cfg : Config} (h : cfg.Admissible) {c : Symbol} :
    cfg.decRom c = INVALID ↔ isHexDigit c = false := by
  rw [h.decRom_eq, decRom_eq_invalid_iff]

/-- COMPACT of two hex digits is the spec's, in either mode. -/
theorem Config.Admissible.compact_eq {cfg : Config} (h : cfg.Admissible) (g : Bool) {c1 c2 : Symbol}
    (h1 : isHexDigit c1 = true) (h2 : isHexDigit c2 = true) : compact cfg c1 c2 g = compact standard c1 c2 g := by
  rw [compact_of_valid g (h.ne_invalid_iff.mpr h1) (h.ne_invalid_iff.mpr h2), h.tol_decRom h1 h2,
    compact_of_valid g (decRom_ne_invalid_iff.mpr h1) (decRom_ne_invalid_iff.mpr h2)]
  rfl

theorem Config.Admissible.decodeSeq_eq {cfg : Config} (h : cfg.Admissible) (g : Bool) {x : ByteSequence}
    (hx : ∀ c ∈ x, isHexDigit c = true) : decodeSeq cfg g x = decodeSeq standard g x := by
  obtain heven | hodd := Nat.mod_two_eq_zero_or_one x.length
  · rw [decodeSeq_of_even cfg g heven, decodeSeq_of_even standard g heven]
    exact decodePairs_congr x heven fun c1 h1 c2 h2 => h.compact_eq g (hx c1 h1) (hx c2 h2)
  · rw [decodeSeq_of_odd cfg g hodd, decodeSeq_of_odd standard g hodd]

end Sys2Proof

namespace Sys2Proof.Machine

/-! ### The first pair with an invalid symbol (U3) -/

theorem compact_strict_of_reported_none {cfg : Config} {c1 c2 : Symbol} (h : reportedInvalid cfg c1 c2 = none) :
    compact cfg c1 c2 false = .ok (cfg.tol (cfg.decRom c1) (cfg.decRom c2)) := by
  simp [compact, h]

theorem compact_strict_of_reported_some {cfg : Config} {c1 c2 c : Symbol} (h : reportedInvalid cfg c1 c2 = some c) :
    compact cfg c1 c2 false = .error (.invalidByte c) := by
  simp [compact, h, raise]

/-- Whatever the order of examination, the symbol reported is an invalid one of the pair. -/
theorem reportedInvalid_eq_some {cfg : Config} {c1 c2 c : Symbol} (h : reportedInvalid cfg c1 c2 = some c) :
    (c = c1 ∨ c = c2) ∧ cfg.decRom c = INVALID := by
  cases horder : cfg.c1First <;> simp only [reportedInvalid, horder, decLookup_eq] at h <;> grind

/-- Whatever the order of examination, a pair of which nothing is reported is valid. -/
theorem reportedInvalid_eq_none {cfg : Config} {c1 c2 : Symbol} (h : reportedInvalid cfg c1 c2 = none) :
    cfg.decRom c1 ≠ INVALID ∧ cfg.decRom c2 ≠ INVALID := by
  cases horder : cfg.c1First <;> simp only [reportedInvalid, horder, decLookup_eq] at h <;> grind

/-- Pair `k` of `x` is `c1`, `c2`, and every symbol before it is valid on the machine `cfg`. -/
structure ValidUpToPair (cfg : Config) (x : ByteSequence) (k : Nat) (c1 c2 : Symbol) : Prop where
  fst : x[2 * k]? = some c1
  snd : x[2 * k + 1]? = some c2
  before : ∀ j < 2 * k, ∀ d, x[j]? = some d → cfg.decRom d ≠ INVALID

theorem ValidUpToPair.zero (cfg : Config) (c1 c2 : Symbol) (x : ByteSequence) :
    ValidUpToPair cfg (c1 :: c2 :: x) 0 c1 c2 where
  fst := rfl
  snd := rfl
  before := nofun

theorem ValidUpToPair.succ {cfg : Config} {c1 c2 d1 d2 : Symbol} {x : ByteSequence} {k : Nat}
    (h : ValidUpToPair cfg x k d1 d2) (h1 : cfg.decRom c1 ≠ INVALID) (h2 : cfg.decRom c2 ≠ INVALID) :
    ValidUpToPair cfg (c1 :: c2 :: x) (k + 1) d1 d2 where
  fst := h.fst
  snd := h.snd
  before
    | 0, _, _, rfl => h1
    | 1, _, _, rfl => h2
    | j + 2, hj, d, hd => h.before j (by omega) d hd

/-- On every machine the strict loop fails at the first pair of which a symbol is reported. -/
theorem decodePairs_strict_of_invalid {cfg : Config} :
    ∀ x : ByteSequence, x.length % 2 = 0 → (∃ c ∈ x, cfg.decRom c = INVALID) →
      ∃ k c1 c2 c, ValidUpToPair cfg x k c1 c2 ∧ reportedInvalid cfg c1 c2 = some c ∧
        decodePairs cfg false x = .error (.invalidByte c) := by
  refine even_induction ?nil ?pair
  case nil => rintro ⟨c, ⟨⟩, -⟩
  case pair =>
    rintro c1 c2 x _ ih ⟨c, hmem, hc⟩
    cases hrep : reportedInvalid cfg c1 c2 with
    | some d =>
      exact ⟨0, c1, c2, d, .zero cfg c1 c2 x, hrep, decodePairs_cons_error x (compact_strict_of_reported_some hrep)⟩
    | none =>
      obtain ⟨h1, h2⟩ := reportedInvalid_eq_none hrep
      have hx : c ∈ x := by
        rcases hmem with _ | ⟨_, _ | ⟨_, hmem⟩⟩
        · exact absurd hc h1
        · exact absurd hc h2
        · exact hmem
      obtain ⟨k, d1, d2, d, hk, hd, hdec⟩ := ih ⟨c, hx, hc⟩
      refine ⟨k + 1, d1, d2, d, hk.succ h1 h2, hd, ?_⟩
      rw [decodePairs_cons_ok x (compact_strict_of_reported_none hrep), hdec]
      rfl

/-- Settles O54: an admissible machine's invalid symbols are the spec's, and the loop fails at the first pair that has
one. -/
theorem strictFailureIsOfTheFirstInvalidPair : Obligations.StrictFailureIsOfTheFirstInvalidPair := by
  rintro cfg hcfg x heven ⟨c, hmem, hc⟩
  obtain ⟨k, c1, c2, d, hk, hd, hdec⟩ := decodePairs_strict_of_invalid x heven ⟨c, hmem, hcfg.eq_invalid_iff.mpr hc⟩
  obtain ⟨hd12, hinv⟩ := reportedInvalid_eq_some hd
  refine ⟨k, c1, c2, d, hk.fst, hk.snd, fun j hj e he => hcfg.ne_invalid_iff.mp (hk.before j hj e he), hd12,
    hcfg.eq_invalid_iff.mp hinv, ?_⟩
  rw [decodeSeq_of_even cfg false heven, hdec]

/-! ### The safe claims (U1 to U3) -/

/-- U1: tolerant DECODE on an admissible machine. -/
theorem decodeSeq_tolerant_of_admissible {cfg : Config} (hcfg : cfg.Admissible) {x : ByteSequence}
    (heven : x.length % 2 = 0) :
    ∃ y, decodeSeq cfg true x = .ok y ∧ y.length = x.length / 2 ∧
      ∀ k c1 c2, x[2 * k]? = some c1 → x[2 * k + 1]? = some c2 → isHexDigit c1 = true → isHexDigit c2 = true →
        y[k]? = some (BitVec.ofNat 8 (16 * digitValue c1 + digitValue c2)) := by
  obtain ⟨y, hy⟩ := decodeSeq_tolerant_of_even cfg heven
  refine ⟨y, hy, decodeSeq_ok_length_half hy, fun k c1 c2 hk1 hk2 h1 h2 => ?_⟩
  obtain ⟨b, hb, hk⟩ := decodeSeq_ok_getElem? hy hk1 hk2
  rw [compact_tolerant, hcfg.tol_decRom h1 h2, combine_decRom h1 h2] at hb
  rw [hk, Except.ok.inj hb]

/-- U3: the symbol strict DECODE reports on an admissible machine is an invalid one of the input. -/
theorem decodeSeq_strict_of_admissible {cfg : Config} (hcfg : cfg.Admissible) {x : ByteSequence}
    (heven : x.length % 2 = 0) (hx : ∃ c ∈ x, isHexDigit c = false) :
    ∃ c ∈ x, isHexDigit c = false ∧ decodeSeq cfg false x = .error (.invalidByte c) := by
  obtain ⟨k, c1, c2, c, h1, h2, -, rfl | rfl, hc, hdec⟩ := strictFailureIsOfTheFirstInvalidPair cfg hcfg x heven hx
  · exact ⟨c, List.mem_of_getElem? h1, hc, hdec⟩
  · exact ⟨c, List.mem_of_getElem? h2, hc, hdec⟩

/-- Settles O44: each claim holds of what admissibility fixes. -/
theorem safeForEveryAdmissibleMachine : Obligations.SafeForEveryAdmissibleMachine := fun cfg hcfg =>
  ⟨fun u _ => encodeSeq_congr fun b _ => hcfg.expand_eq b u,
    fun _ => decodeSeq_tolerant_of_admissible hcfg,
    fun g _ => decodeSeq_of_odd cfg g,
    fun _ => hcfg.decodeSeq_eq false,
    fun _ => decodeSeq_strict_of_admissible hcfg⟩

end Sys2Proof.Machine
end

section
/-! SUPPORT. Steps and runs (10_state.md, 20_memory.md section 6, 70_reset_and_hazards.md). -/

namespace Sys2Proof.Machine

/-! ### One operation and one step -/

/-- Settles O47: the response appended is the operation's own, and collecting it leaves the requests. -/
theorem everyOperationOnlyDeliversOneResponse : Obligations.EveryOperationOnlyDeliversOneResponse := fun i =>
  ⟨response standard i, fun s => ⟨_, exec_eq_next_collect i s, rfl, rfl⟩⟩

/-- Settles O45: the two cases of a step. -/
theorem stepRunsTheDecodedRequest : Obligations.StepRunsTheDecodedRequest :=
  ⟨fun _ _ _ => step_cons rfl, fun _ => step_nil rfl⟩

/-- Settles O1: with nothing presented the step is idle. -/
theorem resetHasNothingPresentedOrCollected : Obligations.ResetHasNothingPresentedOrCollected :=
  ⟨State.reset_requests, State.reset_responses, step_nil State.reset_requests⟩

/-- The outputs a request gets, a function of the request alone (R51). -/
def answer (r : Request) : Response := response standard (decodeRequest r)

theorem step_of_requests_cons {s : State} {r : Request} {rest : List Request} (h : s.requests = r :: rest) :
    step s = .next ((s.withRequests rest).collect (answer r)) := by
  rw [step_cons h, exec_eq_next_collect]
  rfl

theorem step_total (s : State) : ∃ t, step s = .next t := by
  cases h : s.requests with
  | nil => exact ⟨s, step_nil h⟩
  | cons r rest => exact ⟨_, step_of_requests_cons h⟩

/-- Settles O42: an idle step appends nothing to either history, and any other one the answer to the same request. -/
theorem outputsIgnoreTheHistory : Obligations.OutputsIgnoreTheHistory := by
  intro s s' hreq
  cases h : s.requests with
  | nil =>
    have h' : s'.requests = [] := hreq ▸ h
    refine ⟨[], [], ?_, ?_⟩
    · rw [step_nil h, List.append_nil, ← h]
    · rw [step_nil h', List.append_nil, ← h']
  | cons r rest => exact ⟨rest, [answer r], step_of_requests_cons h, step_of_requests_cons (hreq ▸ h)⟩

/-! ### The invariant on responses -/

theorem Response.legal_decoded {r : Except DecodeError ByteSequence}
    (h : ∀ c, r = .error (.invalidByte c) → isHexDigit c = false) : (Response.decoded r).Legal := by
  match r with
  | .ok _ => trivial
  | .error .oddLength => trivial
  | .error (.invalidByte c) => exact h c rfl

/-- Every operation delivers a response the spec allows: the encoder path by its alphabets, the decoder path by the
causes of its errors. -/
theorem response_legal (i : Instr) : (response standard i).Legal := by
  cases i with
  | encLookup n => exact encRom_mem_lowerAlphabet n
  | decLookup c =>
    obtain ⟨-, -, -, hrange⟩ := decRom_validity_tests c
    exact hrange
  | casePass | caseFold => trivial
  | expandL b => exact ⟨false, expand_fst_mem_alphabet b false, expand_snd_mem_alphabet b false⟩
  | expandU b => exact ⟨true, expand_fst_mem_alphabet b true, expand_snd_mem_alphabet b true⟩
  | compactT => trivial
  | compactS c1 c2 =>
    obtain ⟨hinv, h⟩ | ⟨-, hinv, h⟩ | ⟨-, -, h⟩ := compact_strict_cases c1 c2 <;> rw [response, h]
    · exact hinv
    · exact hinv
    · trivial
  | encodeL x => exact ⟨encodeSeq_length_even standard false x, false, encodeSeq_subset_alphabet false x⟩
  | encodeU x => exact ⟨encodeSeq_length_even standard true x, true, encodeSeq_subset_alphabet true x⟩
  | decodeS x =>
    exact Response.legal_decoded fun c hc =>
      (response_invalidByte_cases (i := .decodeS x) (Response.error?_decoded_eq_some.mpr hc)).1
  | decodeT x =>
    exact Response.legal_decoded fun c hc =>
      (response_invalidByte_cases (i := .decodeT x) (Response.error?_decoded_eq_some.mpr hc)).1

theorem State.inv_withRequests {s : State} (rs : List Request) : (s.withRequests rs).Inv ↔ s.Inv := Iff.rfl

theorem State.inv_collect {s : State} {r : Response} : (s.collect r).Inv ↔ s.Inv ∧ r.Legal := by
  simp only [State.Inv, State.collect_responses, List.forall_mem_append, List.forall_mem_singleton]

/-- Settles O50: a step collects nothing, or the response of one operation. -/
theorem stepKeepsResponsesLegal : Obligations.StepKeepsResponsesLegal := by
  intro s t hinv hstep
  obtain ⟨-, rfl⟩ | ⟨r, rest, -, rfl⟩ := step_cases hstep
  · exact hinv
  · exact State.inv_collect.mpr ⟨(State.inv_withRequests rest).mpr hinv, response_legal (decodeRequest r)⟩

/-- Settles O51: nothing has been collected at reset. -/
theorem resetResponsesAreLegal : Obligations.ResetResponsesAreLegal := by
  intro r hr
  rw [State.reset_responses] at hr
  cases hr

/-! ### Runs -/

theorem run_succ {s t : State} (n : Nat) (h : step s = .next t) :
    Sys2Proof.core.run (n + 1) s = Sys2Proof.core.run n t := by
  have hcore : Sys2Proof.core.step s = .next t := h
  simp only [Host.Core.run, hcore]

/-- Settles O48: every step answers a next state. -/
theorem everyRunIsSafe : Obligations.EveryRunIsSafe := by
  intro n
  induction n with
  | zero => exact fun s => ⟨s, rfl⟩
  | succ n ih =>
    intro s
    obtain ⟨t, ht⟩ := step_total s
    obtain ⟨t', ht'⟩ := ih t
    exact ⟨t', (run_succ n ht).trans ht'⟩

/-- A program runs to its end and is answered request by request. -/
theorem run_program (p : List Request) (done : List Response) :
    Sys2Proof.core.run p.length ({ requests := p, responses := done } : State) =
      .next ({ requests := [], responses := done ++ p.map answer } : State) := by
  induction p generalizing done with
  | nil => rw [List.map_nil, List.append_nil]; rfl
  | cons r p ih =>
    rw [List.length_cons, run_succ p.length (step_of_requests_cons rfl), List.map_cons, List.append_cons]
    exact ih (done ++ [answer r])

/-- Settles O49: the state's own list is the program. -/
theorem runAnswersEveryRequestInOrder : Obligations.RunAnswersEveryRequestInOrder := fun s =>
  run_program s.requests s.responses

/-- The responses of a program run from reset are its answers. -/
theorem responses_of_run_reset {p : List Request} {t : State}
    (h : Sys2Proof.core.run p.length (State.reset.withRequests p) = .next t) : t.responses = p.map answer := by
  cases h.symm.trans (run_program p [])
  rfl

/-- Settles O43: each list of pairs is the program paired with a function of each request. -/
theorem reorderedProgramsGiveTheSameOutputs : Obligations.ReorderedProgramsGiveTheSameOutputs := by
  intro p p' t t' hperm ht ht'
  rw [responses_of_run_reset ht, responses_of_run_reset ht', ← List.map_prod_left_eq_zip,
    ← List.map_prod_left_eq_zip]
  exact hperm.map fun r => (r, answer r)

/-! ### The drivers of EXPAND and COMPACT (R4, R108, R131) -/

theorem answer_expander (u : Bool) (b : Byte) :
    answer (.expander (BitVec.ofBool u ++ b)) = .pair (expand standard b u).1 (expand standard b u).2 := by
  rw [answer, decodeRequest_expander]
  cases u <;> rfl

theorem answer_compactor (g : Bool) (c1 c2 : Symbol) :
    answer (.compactor (BitVec.ofBool g ++ c1 ++ c2)) = .compacted (compact standard c1 c2 g) := by
  rw [answer, decodeRequest_compactor]
  cases g <;> rfl

theorem expandProgram_length (u : Bool) (x : ByteSequence) : (expandProgram u x).length = x.length :=
  List.length_map _

/-- What the host joins of a run of EXPANDs is ENCODE's output. -/
theorem collectSymbols_expandProgram (u : Bool) (x : ByteSequence) :
    collectSymbols ((expandProgram u x).map answer) = encodeSeq standard u x := by
  induction x with
  | nil => rfl
  | cons b x ih =>
    rw [encodeSeq_cons, ← ih, expandProgram, List.map_cons, List.map_cons, answer_expander, collectSymbols]
    rfl

/-- Settles O52: the run's answers are the EXPANDs of the bytes in order. -/
theorem encodeIsARunOfExpands : Obligations.EncodeIsARunOfExpands := by
  intro u x done
  refine ⟨(expandProgram u x).map answer, ?_, ?_⟩
  · rw [← expandProgram_length u x]
    exact run_program (expandProgram u x) done
  · rw [collectSymbols_expandProgram]
    cases u <;> rfl

theorem compactProgram_length (g : Bool) :
    ∀ x : ByteSequence, x.length % 2 = 0 → (compactProgram g x).length = x.length / 2 := by
  refine even_induction rfl ?pair
  case pair =>
    intro c1 c2 x _ ih
    rw [compactProgram, List.length_cons, ih, List.length_cons, List.length_cons]
    omega

/-- What the host collects of a run of COMPACTs is what DECODE's loop makes of the pairs. -/
theorem collectBytes_compactProgram (g : Bool) :
    ∀ x : ByteSequence, x.length % 2 = 0 →
      collectBytes ((compactProgram g x).map answer) = decodePairs standard g x := by
  refine even_induction rfl ?pair
  case pair =>
    intro c1 c2 x _ ih
    rw [compactProgram, List.map_cons, answer_compactor]
    cases h : compact standard c1 c2 g with
    | error e => rw [decodePairs_cons_error x h, collectBytes]
    | ok b =>
      rw [decodePairs_cons_ok x h, ← ih, collectBytes]
      cases collectBytes ((compactProgram g x).map answer) <;> rfl

/-- Settles O53: the run's answers are the COMPACTs of the pairs in order. -/
theorem decodeIsARunOfCompacts : Obligations.DecodeIsARunOfCompacts := by
  intro g x done heven
  refine ⟨(compactProgram g x).map answer, ?_, ?_⟩
  · rw [← compactProgram_length g x heven]
    exact run_program (compactProgram g x) done
  · rw [collectBytes_compactProgram g x heven, ← decodeSeq_of_even standard g heven]
    cases g <;> rfl

end Sys2Proof.Machine
end
